-- ==== Sys2Proof/Word.lean ====
section
/-! DEFINITION. The machine's one word type and its plainest arithmetic (00_scope.md section 5.1: every register
value, memory cell, opcode, operand and immediate is a byte, and there are no signed quantities). -/

namespace Sys2Proof

/-- A byte: an unsigned integer in 0 to 255 (`REG_WIDTH` = `CELL_WIDTH` = 8, R5, R20, R40). -/
abbrev Byte := BitVec 8

/-- A register number, 0 to 7 (`NUM_REGS` = 8, R20). -/
abbrev RegIdx := Fin 8

/-- The stack pointer is register 7 (`SP_INDEX`, R5, R21). -/
abbrev SP : RegIdx := 7

/-- Narrow an exact integer result to a byte: `n mod 256` (R115, decision D1 of the spec). -/
def narrow (n : Nat) : Byte := BitVec.ofNat 8 n

end Sys2Proof
end

