-- ==== Sys2Proof/Config.lean ====
section
/-! DEFINITION. The implementation parameters of 00_scope.md R5 that the spec leaves OPEN, as one configuration record
(92_eei_decisions.md, advice to the modeller), with the Opcode Table among them (10_state.md R30). The values the model
starts with stand in Sys2Proof/Decode.lean (the opcode bytes) and Sys2Proof/Machine/Params.lean (the rest). -/

namespace Sys2Proof

/-- The Opcode Table: the opcode byte `OPC_<tag>` of each of the eleven tags (R5, R30, R64). -/
structure OpcodeTable where
  ldi : Byte
  prn : Byte
  mul : Byte
  cmp : Byte
  push : Byte
  pop : Byte
  st : Byte
  jmp : Byte
  jeq : Byte
  jne : Byte
  hlt : Byte
  deriving DecidableEq, Repr

/-- The eleven opcode bytes, in the table's order. -/
def OpcodeTable.bytes (t : OpcodeTable) : List Byte :=
  [t.ldi, t.prn, t.mul, t.cmp, t.push, t.pop, t.st, t.jmp, t.jeq, t.jne, t.hlt]

/-- "The eleven `OPC_<tag>` values must be pairwise distinct bytes" (R6). -/
abbrev OpcodeTable.distinct (t : OpcodeTable) : Prop := t.bytes.Nodup

/-- `ST_POLICY` (R5, R132, decision D3): what ST does. -/
inductive StPolicy where
  /-- ST stores (the spec value). -/
  | store
  /-- ST is fatal with `UndefinedStoreTarget`. -/
  | fault
  deriving DecidableEq, Repr

/-- `FLAG_U_POLICY` (R5, R154, decision D9): what JEQ and JNE do when the eq flag is uninitialised. -/
inductive FlagUPolicy where
  /-- Both fall through (the spec value). -/
  | fallthrough
  /-- Both are fatal with `UninitialisedFlagRead`. -/
  | fault
  deriving DecidableEq, Repr

/-- The parameters of R5 that are not fixed. `NUM_REGS`, `REG_WIDTH`, `SP_INDEX`, `PC_RESET` and `CELL_WIDTH` are fixed
and are in the types (`RegIdx`, `Byte`, `SP`) and in `State.construct`. -/
structure Config where
  /-- `MEM_SIZE`: the number of memory cells; valid addresses are 0 to `MEM_SIZE`-1. -/
  memSize : Nat
  /-- `SP_RESET`: the reset value of register 7. -/
  spReset : Byte
  /-- `R_RESET`: the reset value of registers 0 to 6. -/
  rReset : Byte
  /-- `MEM_FILL`: the value of the cells the loader did not write. -/
  memFill : Byte
  /-- `ST_POLICY`. -/
  stPolicy : StPolicy
  /-- `ST_PC_ADVANCE`: the PC increment after ST. -/
  stPcAdvance : Nat
  /-- `FLAG_U_POLICY`. -/
  flagUPolicy : FlagUPolicy
  /-- The Opcode Table. -/
  opcodes : OpcodeTable
  deriving DecidableEq, Repr

/-- The legal values of the parameters (R5, R6): `MEM_SIZE` is 255 or 256, `SP_RESET` is at most `MEM_SIZE`,
`ST_PC_ADVANCE` is 2 or 3, the opcode bytes are pairwise distinct, and LDI's is the one the source states (R64). -/
abbrev Config.legal (c : Config) : Prop :=
  (c.memSize = 255 ∨ c.memSize = 256) ∧ c.spReset.toNat ≤ c.memSize ∧
  (c.stPcAdvance = 2 ∨ c.stPcAdvance = 3) ∧ c.opcodes.distinct ∧ c.opcodes.ldi = 0x82#8

end Sys2Proof
end

