-- ==== Sys2Proof/Syntax.lean ====
section
/-! DEFINITION. The instructions: one constructor per row of spec/opcode_table.json, each with its operand bytes as
fetched (R60). A register operand is the whole operand byte (R62): whether it names a register is asked at execution
(R85), so an instruction whose operand byte is 8 or more is a term too, and `Instr.wf` tells the two apart. -/

namespace Sys2Proof

/-- The closed set of eleven instructions (R2, R60), operands in the order of the operand bytes (R68). -/
inductive Instr where
  /-- `LDI reg, value` (R100) -/
  | ldi (reg value : Byte)
  /-- `PRN reg` (R101) -/
  | prn (reg : Byte)
  /-- `MUL reg_a, reg_b` (R111) -/
  | mul (regA regB : Byte)
  /-- `CMP reg_a, reg_b` (R112) -/
  | cmp (regA regB : Byte)
  /-- `PUSH reg` (R130) -/
  | push (reg : Byte)
  /-- `POP reg` (R131) -/
  | pop (reg : Byte)
  /-- `ST reg_a, reg_b` (R132) -/
  | st (regA regB : Byte)
  /-- `JMP reg` (R150) -/
  | jmp (reg : Byte)
  /-- `JEQ reg` (R151) -/
  | jeq (reg : Byte)
  /-- `JNE reg` (R152) -/
  | jne (reg : Byte)
  /-- `HLT` (R153) -/
  | hlt
  deriving DecidableEq, Repr

end Sys2Proof
end

