-- ==== Sys2Proof/WellFormed.lean ====
section
/-! DEFINITION. Which instructions are well formed: every operand byte that names a register names one of the eight
(R62, R85). An ill-formed one still executes: it stops fatally with `RegisterIndexOutOfRange` (R173). -/

namespace Sys2Proof

/-- The operand bytes that name registers, in operand order (R85: op1 of every instruction that has operands; also
op2 of MUL, CMP and ST; LDI's op2 is an immediate and is not among them). -/
def Instr.regOperands : Instr → List Byte
  | .ldi r _ => [r]
  | .prn r => [r]
  | .mul a b => [a, b]
  | .cmp a b => [a, b]
  | .push r => [r]
  | .pop r => [r]
  | .st a b => [a, b]
  | .jmp r => [r]
  | .jeq r => [r]
  | .jne r => [r]
  | .hlt => []

/-- Every register operand is at most 7 (R62). -/
def Instr.wf (i : Instr) : Bool := i.regOperands.all fun b => b.toNat < 8

end Sys2Proof
end

