-- ==== Sys2Proof/Decode.lean ====
section
/-! DEFINITION. The decoder, total on any bytes and rejecting by name, the encoder written from the same tables, and
the opcode bytes the model starts with (30_encoding.md R60 to R67; 40_execution_cycle.md R82). -/

namespace Sys2Proof

/-- The symbolic instruction tags (00_scope.md section 6, R64). -/
inductive Tag where
  | ldi | prn | mul | cmp | push | pop | st | jmp | jeq | jne | hlt
  deriving DecidableEq, Repr

/-- The default opcode bytes of R64. LDI's byte is the source's; the other ten are PRESUMED, the published opcodes of
the LS-8 teaching architecture (decision D13 and passage G1 of the spec; log entry 8: unsafe). -/
def defaultOpcodes : OpcodeTable where
  ldi := 0b10000010#8
  prn := 0b01000111#8
  mul := 0b10100010#8
  cmp := 0b10100111#8
  push := 0b01000101#8
  pop := 0b01000110#8
  st := 0b10000100#8
  jmp := 0b01010100#8
  jeq := 0b01010101#8
  jne := 0b01010110#8
  hlt := 0b00000001#8

/-- Decoding is a lookup of the whole opcode byte (R65, R82): the tag, or none when the byte is not in the table. -/
def OpcodeTable.lookup (t : OpcodeTable) (b : Byte) : Option Tag :=
  if b = t.ldi then some .ldi
  else if b = t.prn then some .prn
  else if b = t.mul then some .mul
  else if b = t.cmp then some .cmp
  else if b = t.push then some .push
  else if b = t.pop then some .pop
  else if b = t.st then some .st
  else if b = t.jmp then some .jmp
  else if b = t.jeq then some .jeq
  else if b = t.jne then some .jne
  else if b = t.hlt then some .hlt
  else none

/-- The opcode byte of a tag. -/
def OpcodeTable.byteOf (t : OpcodeTable) : Tag → Byte
  | .ldi => t.ldi
  | .prn => t.prn
  | .mul => t.mul
  | .cmp => t.cmp
  | .push => t.push
  | .pop => t.pop
  | .st => t.st
  | .jmp => t.jmp
  | .jeq => t.jeq
  | .jne => t.jne
  | .hlt => t.hlt

/-- The number of operand bytes, a fixed property of the tag (R60, R61). -/
def Tag.operandCount : Tag → Nat
  | .ldi => 2
  | .prn => 1
  | .mul => 2
  | .cmp => 2
  | .push => 1
  | .pop => 1
  | .st => 2
  | .jmp => 1
  | .jeq => 1
  | .jne => 1
  | .hlt => 0

/-- The instruction of a tag and its operand bytes op1, op2 (R80's `execute(tag, op1, op2)`). A byte beyond the tag's
operand count is ignored. -/
def Tag.assemble (tag : Tag) (op1 op2 : Byte) : Instr :=
  match tag with
  | .ldi => .ldi op1 op2
  | .prn => .prn op1
  | .mul => .mul op1 op2
  | .cmp => .cmp op1 op2
  | .push => .push op1
  | .pop => .pop op1
  | .st => .st op1 op2
  | .jmp => .jmp op1
  | .jeq => .jeq op1
  | .jne => .jne op1
  | .hlt => .hlt

/-- Why a list of bytes is no instruction. -/
inductive DecodeError where
  /-- There is no byte to read. -/
  | noBytes
  /-- The first byte is not in the Opcode Table (R66). -/
  | unknownOpcode (b : Byte)
  /-- The tag has more operand bytes than are left; `have_` of them are there. -/
  | missingOperand (tag : Tag) (have_ : Nat)
  deriving DecidableEq, Repr

/-- The decoder over bytes at ascending addresses (R44, R60): the instruction and the bytes that follow it. -/
def decode (t : OpcodeTable) : List Byte → Except DecodeError (Instr × List Byte)
  | [] => .error .noBytes
  | b :: rest =>
    match t.lookup b with
    | none => .error (.unknownOpcode b)
    | some tag =>
      match tag.operandCount, rest with
      | 0, rest => .ok (tag.assemble 0#8 0#8, rest)
      | 1, x :: rest => .ok (tag.assemble x 0#8, rest)
      | 2, x :: y :: rest => .ok (tag.assemble x y, rest)
      | _, short => .error (.missingOperand tag short.length)

/-- The tag of an instruction. -/
def Instr.tag : Instr → Tag
  | .ldi _ _ => .ldi
  | .prn _ => .prn
  | .mul _ _ => .mul
  | .cmp _ _ => .cmp
  | .push _ => .push
  | .pop _ => .pop
  | .st _ _ => .st
  | .jmp _ => .jmp
  | .jeq _ => .jeq
  | .jne _ => .jne
  | .hlt => .hlt

/-- The operand bytes of an instruction, in address order (R60). -/
def Instr.operands : Instr → List Byte
  | .ldi r v => [r, v]
  | .prn r => [r]
  | .mul a b => [a, b]
  | .cmp a b => [a, b]
  | .push r => [r]
  | .pop r => [r]
  | .st a b => [a, b]
  | .jmp r => [r]
  | .jeq r => [r]
  | .jne r => [r]
  | .hlt => []

/-- The bytes of an instruction (R60): its opcode byte and then its operand bytes. -/
def encode (t : OpcodeTable) (i : Instr) : List Byte := t.byteOf i.tag :: i.operands

/-- The `k`-th byte of an instruction whose bits are `w`, bit 0 the least significant bit of the first byte. -/
def tableByte (nbits w k : Nat) : Byte := BitVec.ofNat 8 ((w % 2 ^ nbits) >>> (8 * k))

/-- The bytes of the host's instruction word, the first at the lowest address, up to the longest instruction (3). -/
def tableBytes (nbits w : Nat) : List Byte := [tableByte nbits w 0, tableByte nbits w 1, tableByte nbits w 2]

/-- What the decoder reads, under the default opcode bytes, from an instruction whose bits are `w`, numbered as
spec/opcode_table.json numbers them; every bit at or above `nbits` is 0. -/
def decodeTableWord (nbits w : Nat) : Option Instr :=
  match decode defaultOpcodes (tableBytes nbits w) with
  | .ok (i, _) => some i
  | .error _ => none

end Sys2Proof
end

