-- ==== Sys2Proof/Machine/Params.lean ====
section
/-! DEFINITION. The parameter values the machine starts with after `State.reset`: every OPEN parameter of 00_scope.md R5
at the value the spec fixes for it. No meaning reads this definition: they read the parameters the state carries. -/

namespace Sys2Proof.Machine

/-- The spec values of R5. DESIGN CHOICE: the parameters are OPEN and the model takes the spec's own values (log entries
2 to 9, each of which says whether it is safe). -/
def defaultConfig : Config where
  memSize := 255
  spReset := 0xF4#8
  rReset := 0x00#8
  memFill := 0x00#8
  stPolicy := .store
  stPcAdvance := 2
  flagUPolicy := .fallthrough
  opcodes := defaultOpcodes

end Sys2Proof.Machine
end

