-- ==== Sys2Proof/Machine/State.lean ====
section
/-! DEFINITION. The machine's state as plain data (10_state.md), the fatal kinds (60_exceptions.md R170), the reasons a
step can stop, and the state right after reset (R33, R200). -/

namespace Sys2Proof.Machine

/-- The value of one flag: uninitialised, 0 or 1 (R26, conflict C8). -/
inductive FlagVal where
  /-- `U`: no compare has executed. -/
  | uninit
  /-- 0 -/
  | zero
  /-- 1 -/
  | one
  deriving DecidableEq, Repr

/-- The Flag Set: three separately stored tri-state flags (R26). -/
structure Flags where
  eq : FlagVal
  lt : FlagVal
  gt : FlagVal
  deriving DecidableEq, Repr

/-- Who asks for a memory access (R42, R170). -/
inductive AccessKind where
  | fetch
  | operand
  | read
  | write
  deriving DecidableEq, Repr

/-- The fatal kinds, complete (R170). -/
inductive FatalKind where
  /-- An access of kind `kind` at address `addr`, which is `MEM_SIZE` or more (R172). -/
  | memoryOutOfBounds (kind : AccessKind) (addr : Nat)
  /-- An operand byte that names a register is 8 to 255 (R173). -/
  | registerIndexOutOfRange (b : Byte)
  /-- The ALU was invoked with an operation tag other than ADD, MUL, CMP; no program can raise it (R114, R174). -/
  | unsupportedALUOperation (code : Nat)
  /-- ST under `ST_POLICY = fault` (R132, R175). -/
  | undefinedStoreTarget
  /-- JEQ or JNE on an uninitialised eq flag under `FLAG_U_POLICY = fault` (R154, R175). -/
  | uninitialisedFlagRead
  deriving DecidableEq, Repr

/-- The run state `RUN` (R28, conflict C5). -/
inductive Run where
  | running
  | halted
  | fatal (k : FatalKind)
  deriving DecidableEq, Repr

/-- One unknown-opcode report: the address of the byte and the byte (R32, R176, decision D14). -/
structure Report where
  addr : Nat
  byte : Byte
  deriving DecidableEq, Repr

/-- The memory array: the cells that differ from `MEM_FILL`, at strictly rising addresses (R29). `Memory.wf` in
Sys2Proof/Machine/Ops.lean says that form. -/
abbrev Memory := List Host.Cell

/-- The whole state of the machine. -/
structure State where
  /-- The parameters the machine was constructed with (R5) and its Opcode Table (R30): no step writes them. DESIGN
  CHOICE (log entry 1, safe). -/
  cfg : Config
  /-- `R[0]` to `R[7]` (R20); `R[7]` is the stack pointer (R21). -/
  regs : Vector Byte 8
  /-- `PC`, a non-negative integer that never wraps (R23). -/
  pc : Nat
  /-- `IR`, the most recently fetched opcode byte (R25). -/
  ir : Byte
  /-- `FL.eq`, `FL.lt`, `FL.gt` (R26). -/
  fl : Flags
  /-- `RUN` (R28). -/
  run : Run
  /-- `M[0]` to `M[MEM_SIZE-1]` (R29). -/
  mem : Memory
  /-- `OUT`, the bytes PRN emitted, oldest first (R31). -/
  out : List Byte
  /-- `ERR`, the unknown-opcode reports, oldest first (R32). -/
  err : List Report
  deriving DecidableEq, Repr

/-- Why no step exists (R28, R171): the outcome of a step asked of a machine that is not running. No instruction and no
step of a running machine answers with one: a fatal step is a next state whose `RUN` is `fatal k`. -/
inductive Fault where
  /-- Raised by `step` when `RUN` is `halted`: the machine has halted and nothing wakes it (R153). Safe: the model stops
  where the spec says that no step exists. -/
  | halted
  /-- Raised by `step` when `RUN` is `fatal k`: the machine has stopped for good with kind `k` (R171). Safe: the model
  stops where the spec says that no step exists. -/
  | fatal (k : FatalKind)
  deriving DecidableEq, Repr

/-- Why the model gives no meaning. -/
inductive Refusal where
  /-- Raised by an arm of `exec` whose instruction has no meaning yet; no arm of this model does. Safe. -/
  | notModelled (mnemonic : String)
  /-- Raised by `State.load` for an image of `length` bytes, more than `MEM_SIZE`: outside the core's contract with the
  loader (R71, U17). Safe: the model gives such an image no run. -/
  | imageTooLong (length : Nat)
  deriving DecidableEq, Repr

/-- Construction, the machine's one reset (R33, R200), under the parameters `c`: before the load phase, so every memory
cell is `MEM_FILL` and nothing is listed. The IR's reset value is unspecified and unobservable (R25): DESIGN CHOICE 0x00
(log entry 10). -/
def State.construct (c : Config) : State where
  cfg := c
  regs := #v[c.rReset, c.rReset, c.rReset, c.rReset, c.rReset, c.rReset, c.rReset, c.spReset]
  pc := 0
  ir := 0x00#8
  fl := ⟨.uninit, .uninit, .uninit⟩
  run := .running
  mem := []
  out := []
  err := []

/-- The machine right after reset, at the spec's parameter values. -/
def State.reset : State := State.construct defaultConfig

end Sys2Proof.Machine
end

