-- ==== Sys2Proof/Machine/Flags.lean ====
section
/-! DEFINITION. The flag computation of CMP, the only one the machine has (10_state.md R27, 42_alu.md R112), and the test
the conditional jumps make (44_control.md R151, R152). -/

namespace Sys2Proof.Machine

/-- The flags after comparing `x` with `y` as unsigned bytes (R112; unsigned is decision D19): exactly one is 1. -/
def compareFlags (x y : Byte) : Flags :=
  if x.toNat = y.toNat then ⟨.one, .zero, .zero⟩
  else if x.toNat < y.toNat then ⟨.zero, .one, .zero⟩
  else ⟨.zero, .zero, .one⟩

/-- One of the three results of a compare (R27): exactly one flag is 1 and the other two are 0. -/
def Flags.oneHot (f : Flags) : Bool :=
  decide (f = ⟨.one, .zero, .zero⟩) || decide (f = ⟨.zero, .one, .zero⟩) || decide (f = ⟨.zero, .zero, .one⟩)

/-- The four reachable flag states (R27): all `U`, or one of the three results of a compare. -/
def Flags.reachable (f : Flags) : Bool := decide (f = ⟨.uninit, .uninit, .uninit⟩) || f.oneHot

/-- What a conditional jump finds that is taken when the eq flag is `want` (R151, R152, R154). -/
inductive BranchTest where
  | taken
  | notTaken
  /-- The eq flag is `U` and `FLAG_U_POLICY` is `fault`. -/
  | uninitialised
  deriving DecidableEq, Repr

/-- The test of a conditional jump taken when the eq flag is `want`, 0 or 1: a flag that is `U` is neither, so the jump
falls through, unless the policy makes the read fatal (R154, decision D9). -/
def branchTest (policy : FlagUPolicy) (eq want : FlagVal) : BranchTest :=
  match eq with
  | .uninit =>
    match policy with
    | .fallthrough => .notTaken
    | .fault => .uninitialised
  | .zero => if want = .zero then .taken else .notTaken
  | .one => if want = .one then .taken else .notTaken

end Sys2Proof.Machine
end

