-- ==== Sys2Proof/Machine/Ops.lean ====
section
/-! DEFINITION. The named operations every meaning is written over: the memory primitives `MemRead` and `MemWrite`
(20_memory.md R40, R41), registers (R20), the PC (R23), the two outputs (R31, R32), `raise` (60_exceptions.md R171, R178)
and the unknown-opcode step (R176). There is no trap entry and no return from one in this machine (R180). -/

namespace Sys2Proof.Machine

/-- What a step of this machine answers. -/
abbrev Result := Host.Outcome State Fault Refusal

/-! ### The memory array -/

/-- The byte at address `a` of a memory whose unlisted cells hold `fill`. -/
def Memory.read (fill : Byte) : Memory → Nat → Byte
  | [], _ => fill
  | (b, w) :: m, a => if a = b then w else Memory.read fill m a

/-- Write `v` at address `a`, keeping the canonical form: a cell that comes to hold `fill` is unlisted. -/
def Memory.write (fill : Byte) : Memory → Nat → Byte → Memory
  | [], a, v => if v = fill then [] else [(a, v)]
  | (b, w) :: m, a, v =>
    if a < b then (if v = fill then (b, w) :: m else (a, v) :: (b, w) :: m)
    else if a = b then (if v = fill then m else (a, v) :: m)
    else (b, w) :: Memory.write fill m a v

/-- The canonical form: addresses strictly rise from `low` on and no entry equals `fill`. -/
def Memory.wfFrom (fill : Byte) : Nat → Memory → Bool
  | _, [] => true
  | low, (a, v) :: m => decide (low ≤ a) && decide (v ≠ fill) && Memory.wfFrom fill (a + 1) m

/-- The canonical form of a memory whose unlisted cells hold `fill`. -/
def Memory.wf (fill : Byte) (m : Memory) : Bool := Memory.wfFrom fill 0 m

/-- Every listed cell exists: its address is below `size` (R29). -/
def Memory.bounded (size : Nat) (m : Memory) : Bool := m.all fun c => decide (c.1 < size)

/-- Write bytes at ascending addresses from `a`, those at `size` and above left out. -/
def Memory.writeBytes (fill : Byte) (size : Nat) : Memory → Nat → List Byte → Memory
  | m, _, [] => m
  | m, a, v :: vs =>
    Memory.writeBytes fill size (if a < size then Memory.write fill m a v else m) (a + 1) vs

/-- What an unlisted address of this machine reads as: `MEM_FILL` (R33, R71; log entry 6). -/
def State.unlisted (s : State) : Byte := s.cfg.memFill

/-- The byte held at address `a`, with no bounds check. -/
def State.byteAt (s : State) (a : Nat) : Byte := Memory.read s.unlisted s.mem a

/-- The memory of the state is in canonical form. -/
def State.memWf (s : State) : Bool := Memory.wf s.unlisted s.mem

/-- `MemRead(a, 1)` (R41): fatal out of bounds, never clamped or wrapped. -/
def State.memRead (s : State) (kind : AccessKind) (a : Nat) : Except FatalKind Byte :=
  if a < s.cfg.memSize then .ok (s.byteAt a) else .error (.memoryOutOfBounds kind a)

/-- `MemWrite(a, 1, v)` (R41): fatal out of bounds, and then no cell changes. -/
def State.memWrite (s : State) (a : Nat) (v : Byte) : Except FatalKind State :=
  if a < s.cfg.memSize then .ok { s with mem := Memory.write s.unlisted s.mem a v }
  else .error (.memoryOutOfBounds .write a)

/-! ### Registers, flags, PC, IR -/

/-- A register read: the last value written, no side effect (R20). -/
def State.reg (s : State) (i : RegIdx) : Byte := s.regs.get i

/-- A register write (R20). No register is hard-wired. -/
def State.setReg (s : State) (i : RegIdx) (v : Byte) : State := { s with regs := s.regs.set i v }

/-- Write all three flags (R27). -/
def State.setFl (s : State) (f : Flags) : State := { s with fl := f }

/-- `PC <- t`. -/
def State.setPc (s : State) (t : Nat) : State := { s with pc := t }

/-- `PC <- PC + n`, on integers with no wrap (R23, R87). -/
def State.advance (s : State) (n : Nat) : State := s.setPc (s.pc + n)

/-- `IR <- b` (R25, R81). -/
def State.setIr (s : State) (b : Byte) : State := { s with ir := b }

/-- `RUN <- r` (R28). -/
def State.setRun (s : State) (r : Run) : State := { s with run := r }

/-! ### Outputs -/

/-- `emit OUT(v)` (R31). -/
def State.emitOut (s : State) (v : Byte) : State := { s with out := s.out ++ [v] }

/-- `emit ERR(UnknownOpcode(a, b))` (R32). -/
def State.emitErr (s : State) (r : Report) : State := { s with err := s.err ++ [r] }

/-! ### Ending a step -/

/-- `raise k` (R171): the step ends with `RUN <- fatal(k)`, everything else as the state handed over has it (R178). -/
def raise (k : FatalKind) (s : State) : Result := .next (s.setRun (.fatal k))

/-- The unknown-opcode step for the byte `b` at the PC (R83, R176): one report, `PC + 1`, nothing else. -/
def unknownOpcode (b : Byte) (s : State) : Result := .next ((s.emitErr ⟨s.pc, b⟩).advance 1)

end Sys2Proof.Machine
end

