-- ==== Sys2Proof/Machine/Operands.lean ====
section
/-! DEFINITION. The operand forms: a register operand, two register operands, an address held in a register (30_encoding.md
R62, R63; 40_execution_cycle.md R85). An immediate is its byte as it stands (R63) and needs no operation. -/

namespace Sys2Proof.Machine

/-- `RegIdx(b)` (00_scope.md section 5.3, R62, R85): the whole byte names a register, 8 and above is fatal. -/
def regIdx (b : Byte) : Except FatalKind RegIdx :=
  if h : b.toNat < 8 then .ok ⟨b.toNat, h⟩ else .error (.registerIndexOutOfRange b)

/-- Two register operands, op1 checked first (R85, decision D10). -/
def regPair (a b : Byte) : Except FatalKind (RegIdx × RegIdx) :=
  match regIdx a with
  | .error k => .error k
  | .ok i =>
    match regIdx b with
    | .error k => .error k
    | .ok j => .ok (i, j)

/-- The address a register holds, `zext(R[i])`: the byte 0 to 255 as an integer (00_scope.md section 5.1). -/
def State.regAddr (s : State) (i : RegIdx) : Nat := (s.reg i).toNat

end Sys2Proof.Machine
end

