-- ==== Sys2Proof/Machine/Alu.lean ====
section
/-! DEFINITION. The ALU (42_alu.md): its one operation `apply(op, reg_a_index, reg_b_index)` and the two instructions
that invoke it, MUL and CMP. -/

namespace Sys2Proof.Machine

/-- The operation select of the ALU (R110, R114): the three operations, and any other tag. How another tag is named is
not the spec's; the model numbers it (log entry 15). -/
inductive AluOp where
  | add
  | mul
  | cmp
  | other (code : Nat)
  deriving DecidableEq, Repr

/-- `apply(op, a, b)` (R110): reads `R[a]` and `R[b]`, writes `R[a]` (ADD, MUL) or the flags (CMP); any other tag is
`UnsupportedALUOperation` (R114). ADD is reached by no opcode (R113). -/
def aluApply (op : AluOp) (a b : RegIdx) (s : State) : Except FatalKind State :=
  match op with
  | .add => .ok (s.setReg a (narrow ((s.reg a).toNat + (s.reg b).toNat)))
  | .mul => .ok (s.setReg a (narrow ((s.reg a).toNat * (s.reg b).toNat)))
  | .cmp => .ok (s.setFl (compareFlags (s.reg a) (s.reg b)))
  | .other code => .error (.unsupportedALUOperation code)

/-- An ALU instruction: both indices are checked, the ALU is invoked, the control sequencer adds 3 to the PC (R110,
R111, R112). -/
def aluInstr (op : AluOp) (regA regB : Byte) (s : State) : Result :=
  match regPair regA regB with
  | .error k => raise k s
  | .ok (a, b) =>
    match aluApply op a b s with
    | .error k => raise k s
    | .ok t => .next (t.advance 3)

/-- MUL (R111): `R[a] <- (R[a] * R[b]) mod 256`. -/
def execMul (regA regB : Byte) (s : State) : Result := aluInstr .mul regA regB s

/-- CMP (R112): the three flags from the unsigned comparison of `R[a]` with `R[b]`. -/
def execCmp (regA regB : Byte) (s : State) : Result := aluInstr .cmp regA regB s

end Sys2Proof.Machine
end

