-- ==== Sys2Proof/Machine/Control.lean ====
section
/-! DEFINITION. Control transfer and halt (44_control.md). All jumps are absolute through a register; the target is not
checked when the jump executes. -/

namespace Sys2Proof.Machine

/-- A conditional jump taken when the eq flag is `want` (R151, R152, R154); the index is checked first, taken or not. -/
def branchInstr (want : FlagVal) (reg : Byte) (s : State) : Result :=
  match regIdx reg with
  | .error k => raise k s
  | .ok r =>
    match branchTest s.cfg.flagUPolicy s.fl.eq want with
    | .taken => .next (s.setPc (s.regAddr r))
    | .notTaken => .next (s.advance 2)
    | .uninitialised => raise .uninitialisedFlagRead s

/-- JMP (R150): `PC <- zext(R[r])`. -/
def execJmp (reg : Byte) (s : State) : Result :=
  match regIdx reg with
  | .error k => raise k s
  | .ok r => .next (s.setPc (s.regAddr r))

/-- JEQ (R151): taken if and only if the eq flag is 1. -/
def execJeq (reg : Byte) (s : State) : Result := branchInstr .one reg s

/-- JNE (R152): taken if and only if the eq flag is 0. -/
def execJne (reg : Byte) (s : State) : Result := branchInstr .zero reg s

/-- HLT (R153): `RUN <- halted`; the PC is not written. -/
def execHlt (s : State) : Result := .next (s.setRun .halted)

end Sys2Proof.Machine
end

