-- ==== Sys2Proof/Machine/LoadOutput.lean ====
section
/-! DEFINITION. Load immediate and output (41_ldi_prn.md). -/

namespace Sys2Proof.Machine

/-- LDI (R100): `R[r] <- value`, `PC + 3`. Register 7 is written like any other (R21). -/
def execLdi (reg value : Byte) (s : State) : Result :=
  match regIdx reg with
  | .error k => raise k s
  | .ok r => .next ((s.setReg r value).advance 3)

/-- PRN (R101): one byte, `R[r]`, is appended to `OUT`, `PC + 2`. -/
def execPrn (reg : Byte) (s : State) : Result :=
  match regIdx reg with
  | .error k => raise k s
  | .ok r => .next ((s.emitOut (s.reg r)).advance 2)

end Sys2Proof.Machine
end

