-- ==== Sys2Proof/Machine/StackStore.lean ====
section
/-! DEFINITION. Stack and store (43_stack_store.md): the three instructions that make a data access. -/

namespace Sys2Proof.Machine

/-- The stack pointer after PUSH's decrement: `(R[7] - 1) mod 256` (R115, R130, decision D15). -/
def spDown (sp : Byte) : Byte := narrow (sp.toNat + 255)

/-- The stack pointer after POP's increment: `(R[7] + 1) mod 256` (R115, R131, decision D15). -/
def spUp (sp : Byte) : Byte := narrow (sp.toNat + 1)

/-- PUSH (R130): decrement `R[7]`, then store `R[r]` (read after the decrement) at the new `R[7]`, `PC + 2`. A store
out of bounds is fatal and leaves the decremented stack pointer (R178). -/
def execPush (reg : Byte) (s : State) : Result :=
  match regIdx reg with
  | .error k => raise k s
  | .ok r =>
    let t := s.setReg SP (spDown (s.reg SP))
    match t.memWrite (t.regAddr SP) (t.reg r) with
    | .error k => raise k t
    | .ok u => .next (u.advance 2)

/-- POP (R131): load the byte at `R[7]` into `R[r]`, then increment `R[7]` (after the write of `R[r]`, so `POP R7` ends
with the loaded byte plus 1), `PC + 2`. -/
def execPop (reg : Byte) (s : State) : Result :=
  match regIdx reg with
  | .error k => raise k s
  | .ok r =>
    match s.memRead .read (s.regAddr SP) with
    | .error k => raise k s
    | .ok v =>
      let t := s.setReg r v
      .next ((t.setReg SP (spUp (t.reg SP))).advance 2)

/-- ST (R132): under `ST_POLICY = store`, `M[R[a]] <- R[b]` and `PC + ST_PC_ADVANCE`; under `fault`, fatal. -/
def execSt (regA regB : Byte) (s : State) : Result :=
  match regPair regA regB with
  | .error k => raise k s
  | .ok (a, b) =>
    match s.cfg.stPolicy with
    | .fault => raise .undefinedStoreTarget s
    | .store =>
      match s.memWrite (s.regAddr a) (s.reg b) with
      | .error k => raise k s
      | .ok t => .next (t.advance s.cfg.stPcAdvance)

end Sys2Proof.Machine
end

