-- ==== Sys2Proof/Machine/Cycle.lean ====
section
/-! DEFINITION. The fetch-decode-execute cycle of a running machine (40_execution_cycle.md R80 to R87). -/

namespace Sys2Proof.Machine

/-- The operand fetch of a tag (R84): op1 at `PC + 1` if it has one, then op2 at `PC + 2` if it has two. An operand the
tag does not have is given as 0 and ignored (`Tag.assemble`). -/
def fetchOperands (tag : Tag) (s : State) : Except FatalKind (Byte × Byte) :=
  match tag.operandCount with
  | 0 => .ok (0#8, 0#8)
  | 1 =>
    match s.memRead .operand (s.pc + 1) with
    | .error k => .error k
    | .ok x => .ok (x, 0#8)
  | _ =>
    match s.memRead .operand (s.pc + 1) with
    | .error k => .error k
    | .ok x =>
      match s.memRead .operand (s.pc + 2) with
      | .error k => .error k
      | .ok y => .ok (x, y)

/-- One cycle (R80): fetch into `IR` (R81), decode (R82), unknown opcode (R83), operand fetch (R84), and then the
instruction with its index checks (R85, R86). -/
def cycle (s : State) : Result :=
  match s.memRead .fetch s.pc with
  | .error k => raise k s
  | .ok b =>
    let t := s.setIr b
    match t.cfg.opcodes.lookup b with
    | none => unknownOpcode b t
    | some tag =>
      match fetchOperands tag t with
      | .error k => raise k t
      | .ok (x, y) => exec (tag.assemble x y) t

/-- The bytes the fetch unit can see from the PC on: at most the three of the longest instruction, and only cells that
exist (R41, R44). -/
def State.window (s : State) : List Byte :=
  if s.pc + 2 < s.cfg.memSize then [s.byteAt s.pc, s.byteAt (s.pc + 1), s.byteAt (s.pc + 2)]
  else if s.pc + 1 < s.cfg.memSize then [s.byteAt s.pc, s.byteAt (s.pc + 1)]
  else if s.pc < s.cfg.memSize then [s.byteAt s.pc]
  else []

/-- Place bytes at ascending addresses from the PC and let the machine run: what `State.withFetchWord` needs. -/
def State.placeAtPc (s : State) (bytes : List Byte) : State :=
  { s with
    run := .running
    mem := Memory.writeBytes s.unlisted s.cfg.memSize s.mem s.pc bytes }

end Sys2Proof.Machine
end

