-- ==== Sys2Proof/Machine/Step.lean ====
section
/-! DEFINITION. One step of the machine (00_scope.md section 5.4, 40_execution_cycle.md R80, R90). -/

namespace Sys2Proof.Machine

/-- One step: a cycle while `RUN = running`; a machine that has halted or stopped fatally has no step (R28, R171), which
the model answers with a fault of that name (log entry 12, safe). -/
def step (s : State) : Host.Outcome State Fault Refusal :=
  match s.run with
  | .running => cycle s
  | .halted => .fault .halted
  | .fatal k => .fault (.fatal k)

/-- `s` with the host's instruction word stored where the next step fetches its instruction: the bytes of
`decodeTableWord`, from the PC up, and `RUN = running` so that there is a next step (log entry 18). -/
def State.withFetchWord (s : State) (nbits w : Nat) : State := s.placeAtPc (tableBytes nbits w)

end Sys2Proof.Machine
end

