-- ==== Sys2Proof/Machine/Loader.lean ====
section
/-! DEFINITION. The core's contract with the external loader (30_encoding.md R71, 70_reset_and_hazards.md R200): the memory
it hands over before the first step. The loader itself, its text format (R70) and its failures (R182) are outside the
core (R4). -/

namespace Sys2Proof.Machine

/-- The load phase (R71, R200): the image is written from address 0 upward. An image longer than memory is outside the
contract and is refused by name (U17; log entry 17, safe). -/
def State.load (image : List Byte) (s : State) : Result :=
  if image.length ≤ s.cfg.memSize then
    .next { s with mem := Memory.writeBytes s.unlisted s.cfg.memSize s.mem 0 image }
  else .refused (.imageTooLong image.length)

end Sys2Proof.Machine
end

