-- ==== Sys2Proof/Safety.lean ====
section
/-! DEFINITION. What counts as a safe run, the machine's invariant, and the terms the claims are made in: what a step
leaves unchanged, what the spec's tables list per instruction, and how two states may differ. -/

namespace Sys2Proof.Machine

/-! ### Runs (40_execution_cycle.md R90, R91) -/

/-- The state after `n` steps is `t`. -/
def runsTo (n : Nat) (s t : State) : Prop := Host.Core.run Sys2Proof.core n s = .next t

/-- The run from `s` reaches `RUN = halted`. A run that ends fatally has not halted (R171). -/
def halts (s : State) : Prop := ∃ n t, runsTo n s t ∧ t.run = .halted

/-- The run from `s` reaches `RUN = fatal(k)`. -/
def stopsFatally (s : State) : Prop := ∃ n t k, runsTo n s t ∧ t.run = .fatal k

/-- The run from `s` is infinite, every state `running`. -/
def runsForever (s : State) : Prop := ∀ n, ∃ t, runsTo n s t ∧ t.run = .running

/-- A safe run: it never stops fatally. -/
def safeRun (s : State) : Prop := ¬ stopsFatally s

/-- `RUN` is `fatal(k)` for some kind. -/
def Run.isFatal : Run → Bool
  | .fatal _ => true
  | _ => false

/-! ### The invariant -/

/-- What every step keeps: legal parameters (R6), the memory in canonical form with no cell outside 0 to `MEM_SIZE`-1
(R29), the PC in 0 to `MEM_SIZE`+2 (R23), and the flags in one of their four reachable states (R27). -/
structure State.Inv (s : State) : Prop where
  legal : s.cfg.legal
  memWf : s.memWf = true
  memBounded : Memory.bounded s.cfg.memSize s.mem = true
  pcRange : s.pc ≤ s.cfg.memSize + 2
  flags : s.fl.reachable = true

/-! ### What stays the same between two states -/

/-- Every byte of memory reads as before. -/
def sameMem (s t : State) : Prop := ∀ a, t.byteAt a = s.byteAt a

/-- Every byte of memory but the one at `x` reads as before. -/
def sameMemBut (x : Nat) (s t : State) : Prop := ∀ a, a ≠ x → t.byteAt a = s.byteAt a

/-- Every register but those numbered in `l` is unchanged. -/
def sameRegsBut (l : List Nat) (s t : State) : Prop := ∀ j : RegIdx, j.val ∉ l → t.reg j = s.reg j

/-- The outputs are unchanged. -/
def sameOutputs (s t : State) : Prop := t.out = s.out ∧ t.err = s.err

/-- `RUN`, `IR` and the parameters are unchanged. -/
def sameControl (s t : State) : Prop := t.run = s.run ∧ t.ir = s.ir ∧ t.cfg = s.cfg

/-! ### The spec's tables per instruction -/

/-- The register an operand byte names, for a byte of 0 to 7 (R62). -/
def regOf (b : Byte) : RegIdx := Fin.ofNat 8 b.toNat

/-- The registers an instruction reads (table of R22). -/
def regsRead : Instr → List Nat
  | .ldi _ _ => []
  | .prn r => [r.toNat]
  | .mul a b => [a.toNat, b.toNat]
  | .cmp a b => [a.toNat, b.toNat]
  | .push r => [7, r.toNat]
  | .pop _ => [7]
  | .st a b => [a.toNat, b.toNat]
  | .jmp r => [r.toNat]
  | .jeq r => [r.toNat]
  | .jne r => [r.toNat]
  | .hlt => []

/-- The registers an instruction writes (table of R22). -/
def regsWritten : Instr → List Nat
  | .ldi r _ => [r.toNat]
  | .prn _ => []
  | .mul a _ => [a.toNat]
  | .cmp _ _ => []
  | .push _ => [7]
  | .pop r => [r.toNat, 7]
  | .st _ _ => []
  | .jmp _ => []
  | .jeq _ => []
  | .jne _ => []
  | .hlt => []

/-- How an instruction leaves the PC (table of R24). -/
def nextPc (i : Instr) (s : State) : Nat :=
  match i with
  | .ldi _ _ => s.pc + 3
  | .prn _ => s.pc + 2
  | .mul _ _ => s.pc + 3
  | .cmp _ _ => s.pc + 3
  | .push _ => s.pc + 2
  | .pop _ => s.pc + 2
  | .st _ _ => s.pc + s.cfg.stPcAdvance
  | .jmp r => s.regAddr (regOf r)
  | .jeq r => if s.fl.eq = .one then s.regAddr (regOf r) else s.pc + 2
  | .jne r => if s.fl.eq = .zero then s.regAddr (regOf r) else s.pc + 2
  | .hlt => s.pc

/-- The instruction is CMP, the only one that writes flags (R27). -/
def isCmp : Instr → Bool
  | .cmp _ _ => true
  | _ => false

/-- The instruction is JEQ or JNE, the only ones that read a flag, and they read `FL.eq` (R27). -/
def isConditional : Instr → Bool
  | .jeq _ => true
  | .jne _ => true
  | _ => false

/-- The address an instruction stores to, if it stores (R42): PUSH at the decremented stack pointer, ST at `R[reg_a]`. -/
def storesAt (i : Instr) (s : State) : Option Nat :=
  match i with
  | .push _ => some (spDown (s.reg SP)).toNat
  | .st a _ => some (s.regAddr (regOf a))
  | _ => none

/-- Execute a list of instructions one after the other, stopping at the first that leaves the machine not running. -/
def execAll : List Instr → State → Result
  | [], s => .next s
  | i :: is, s =>
    match exec i s with
    | .next t => if t.run = .running then execAll is t else .next t
    | .fault r => .fault r
    | .refused r => .refused r

/-! ### How two states may differ -/

/-- Apply `f` to the next state an answer holds. -/
def onNext (f : State → State) : Result → Result
  | .next t => .next (f t)
  | .fault r => .fault r
  | .refused r => .refused r

/-- Two states that agree on everything an instruction can read; they may differ in `IR`, `FL.lt`, `FL.gt`, `OUT` and
`ERR` (R25, R27, R31, R32). -/
structure agreeOnReadable (s t : State) : Prop where
  cfg : t.cfg = s.cfg
  regs : t.regs = s.regs
  pc : t.pc = s.pc
  eq : t.fl.eq = s.fl.eq
  run : t.run = s.run
  mem : t.mem = s.mem

end Sys2Proof.Machine
end

