-- ==== Sys2Proof/Certificates/Slice0/Obligations.lean ====
section
/-! DEFINITION. The statements for the provers, one `def Obligations.<Name> : Prop` each; OBLIGATIONS.json lists them.
A clause that rests on a decision of the spec (D<n> of 92_eei_decisions.md) or on a choice of the model says so.
Throughout, a fatal stop is written in R171's own words, the state with `RUN <- fatal(k)`; that the host's outcome `next`
carries that state is the model's representation (log entry 11). -/

open Sys2Proof Sys2Proof.Machine

/-! ### Encoding -/

/-- Decoding an encoded instruction gives it back and leaves the bytes that follow, for every instruction, every operand
byte and every Opcode Table of pairwise distinct bytes (30_encoding.md R60, R61, R64; 00_scope.md R6). -/
def Obligations.DecodeOfEncode : Prop :=
  ∀ (t : OpcodeTable) (i : Instr) (rest : List Byte),
    t.distinct → decode t (encode t i ++ rest) = .ok (i, rest)

/-- The other direction: bytes that decode are the encoding of the instruction they decode to, then the rest. -/
def Obligations.DecodedBytesAreTheEncoding : Prop :=
  ∀ (t : OpcodeTable) (bs rest : List Byte) (i : Instr),
    decode t bs = .ok (i, rest) → bs = encode t i ++ rest

/-- Words written out from the encodings of R60 and the bytes of R64 decode to the instruction they stand for, one per
family. LDI's byte is the source's, the others are the spec's general-knowledge defaults (log entry 8). -/
def Obligations.SpecWordsDecode : Prop :=
  decode defaultOpcodes [0b10000010#8, 0#8, 5#8] = .ok (.ldi 0#8 5#8, []) ∧
  decode defaultOpcodes [0b01000111#8, 3#8] = .ok (.prn 3#8, []) ∧
  decode defaultOpcodes [0b10100111#8, 1#8, 2#8] = .ok (.cmp 1#8 2#8, []) ∧
  decode defaultOpcodes [0b01000101#8, 7#8, 0xFF#8] = .ok (.push 7#8, [0xFF#8]) ∧
  decode defaultOpcodes [0b10000100#8, 4#8, 6#8] = .ok (.st 4#8 6#8, []) ∧
  decode defaultOpcodes [0b01010110#8, 2#8] = .ok (.jne 2#8, []) ∧
  decode defaultOpcodes [0b00000001#8, 9#8] = .ok (.hlt, [9#8])

/-- Decoding matches all eight bits of the opcode byte: a tag is found at exactly its own byte (R65). -/
def Obligations.LookupMatchesWholeByte : Prop :=
  ∀ (t : OpcodeTable) (b : Byte) (tag : Tag), t.distinct → (t.lookup b = some tag ↔ b = t.byteOf tag)

/-- Every byte that is not one of the eleven is an unknown opcode, whatever follows it, and no other is (R66). -/
def Obligations.BytesOutsideTheTableAreUnknown : Prop :=
  ∀ (t : OpcodeTable) (b : Byte) (rest : List Byte),
    decode t (b :: rest) = .error (.unknownOpcode b) ↔ b ∉ t.bytes

/-! ### The cycle -/

/-- A step runs the decoded instruction: when the bytes at the PC decode to `i` (well formed or not), the step of a
running machine is `exec i` at the state whose `IR` holds the opcode byte, and nothing else is added around it (R80). -/
def Obligations.StepRunsTheDecodedInstruction : Prop :=
  ∀ (s : State) (i : Instr) (rest : List Byte), s.run = .running →
    decode s.cfg.opcodes s.window = .ok (i, rest) → step s = exec i (s.setIr (s.byteAt s.pc))

/-- The fetch stage (R81): outside the memory the step is fatal with the PC and `IR` is not written; inside it `IR` takes
the byte at the PC, whatever the address, and the step is not fatal for its fetch. -/
def Obligations.FetchStage : Prop :=
  ∀ s : State, s.run = .running →
    (s.cfg.memSize ≤ s.pc → step s = .next (s.setRun (.fatal (.memoryOutOfBounds .fetch s.pc)))) ∧
    (s.pc < s.cfg.memSize → ∃ t, step s = .next t ∧ t.ir = s.byteAt s.pc ∧
      ∀ a, t.run ≠ .fatal (.memoryOutOfBounds .fetch a))

/-- An unknown opcode appends one report, adds 1 to the PC and changes nothing else, wherever it stands (R83). -/
def Obligations.UnknownOpcodeIsSteppedOver : Prop :=
  ∀ s : State, s.run = .running → s.pc < s.cfg.memSize → s.cfg.opcodes.lookup (s.byteAt s.pc) = none →
    ∃ t r, step s = .next t ∧ t.err = s.err ++ [r] ∧ t.pc = s.pc + 1 ∧ t.regs = s.regs ∧ t.fl = s.fl ∧
      sameMem s t ∧ t.out = s.out ∧ t.run = .running ∧ t.cfg = s.cfg

/-- The report of an unknown opcode holds the address of the byte and the byte (R176; the content is decision D14 of the
spec, not the source's). -/
def Obligations.UnknownOpcodeReportHoldsAddressAndByte : Prop :=
  ∀ s : State, s.run = .running → s.pc < s.cfg.memSize → s.cfg.opcodes.lookup (s.byteAt s.pc) = none →
    ∃ t, step s = .next t ∧ t.err = s.err ++ [⟨s.pc, s.byteAt s.pc⟩]

/-- An operand byte that does not exist is fatal with the first such address, whatever the other operand byte is, and the
instruction has no effect but the fetch into `IR` (R84; the order is decision D10 of the spec). -/
def Obligations.OperandFetchOutOfBounds : Prop :=
  ∀ (s : State) (tag : Tag), s.run = .running → s.pc < s.cfg.memSize →
    s.cfg.opcodes.lookup (s.byteAt s.pc) = some tag →
    (1 ≤ tag.operandCount → s.cfg.memSize ≤ s.pc + 1 →
      step s = .next ((s.setIr (s.byteAt s.pc)).setRun (.fatal (.memoryOutOfBounds .operand (s.pc + 1))))) ∧
    (tag.operandCount = 2 → s.pc + 1 < s.cfg.memSize → s.cfg.memSize ≤ s.pc + 2 →
      step s = .next ((s.setIr (s.byteAt s.pc)).setRun (.fatal (.memoryOutOfBounds .operand (s.pc + 2)))))

/-- `raise` ends the step with `RUN <- fatal(k)`; `fatal` and `halted` are terminal, no step exists from either, a machine
that has stopped fatally never halts, and a step that reports an unknown opcode is the one that goes on (R171). That the step which does not exist is answered with a fault is the
model's choice (log entry 12). -/
def Obligations.FatalAndHaltedAreTerminal : Prop :=
  (∀ (k : FatalKind) (s : State), ∃ t, raise k s = .next t ∧ t.run = .fatal k) ∧
  (∀ s : State, s.run ≠ .running → ∀ t, step s ≠ .next t) ∧
  (∀ (s : State) (k : FatalKind), s.run = .fatal k → ¬ halts s) ∧
  (∀ s t : State, step s = .next t → t.err ≠ s.err → t.run = .running)

/-! ### Load immediate and output -/

/-- LDI (R100): the value is written to the register as it stands and the PC advances by 3; a register byte of 8 or more
is fatal; the value is never checked; the bytes are `OPC_LDI, reg, value` with `OPC_LDI` = 0x82; fetch and operand bytes
outside the memory are fatal. Register 7 is written like any other. -/
def Obligations.LdiLoadsTheImmediate : Prop :=
  ∀ (s : State) (r v : Byte),
    (∀ h : r.toNat < 8, ∃ t, exec (.ldi r v) s = .next t ∧ t.reg ⟨r.toNat, h⟩ = v ∧ sameRegsBut [r.toNat] s t ∧
      t.pc = s.pc + 3 ∧ t.fl = s.fl ∧ sameMem s t ∧ sameOutputs s t ∧ sameControl s t) ∧
    (8 ≤ r.toNat → exec (.ldi r v) s = .next (s.setRun (.fatal (.registerIndexOutOfRange r)))) ∧
    (s.cfg.legal → encode s.cfg.opcodes (.ldi r v) = [0x82#8, r, v]) ∧
    (s.run = .running → s.cfg.memSize ≤ s.pc →
      step s = .next (s.setRun (.fatal (.memoryOutOfBounds .fetch s.pc)))) ∧
    (s.run = .running → s.pc < s.cfg.memSize → s.byteAt s.pc = s.cfg.opcodes.ldi →
      (s.cfg.memSize ≤ s.pc + 1 → ∃ t, step s = .next t ∧ t.run = .fatal (.memoryOutOfBounds .operand (s.pc + 1))) ∧
      (s.cfg.memSize = s.pc + 2 → ∃ t, step s = .next t ∧ t.run = .fatal (.memoryOutOfBounds .operand (s.pc + 2))))

/-- PRN: one byte, the register's value, is appended to `OUT`, the PC advances by 2, nothing else changes (41_ldi_prn.md;
that `OUT` is a sequence of bytes is decision D14). -/
def Obligations.PrnEmitsTheRegister : Prop :=
  ∀ (s : State) (r : Byte) (h : r.toNat < 8), ∃ t, exec (.prn r) s = .next t ∧
    t.out = s.out ++ [s.reg ⟨r.toNat, h⟩] ∧ t.err = s.err ∧ t.pc = s.pc + 2 ∧ sameRegsBut [] s t ∧ t.fl = s.fl ∧
    sameMem s t ∧ sameControl s t

/-! ### The ALU -/

/-- MUL: the low 8 bits of the product of the two registers as they were, also when they are one register; the PC advances
by 3; nothing else changes (42_alu.md; that the result is narrowed modulo 256 is decision D1). -/
def Obligations.MulKeepsTheLowByte : Prop :=
  ∀ (s : State) (a b : Byte) (ha : a.toNat < 8) (hb : b.toNat < 8), ∃ t, exec (.mul a b) s = .next t ∧
    (t.reg ⟨a.toNat, ha⟩).toNat = ((s.reg ⟨a.toNat, ha⟩).toNat * (s.reg ⟨b.toNat, hb⟩).toNat) % 256 ∧
    sameRegsBut [a.toNat] s t ∧ t.pc = s.pc + 3 ∧ t.fl = s.fl ∧ sameMem s t ∧ sameOutputs s t ∧ sameControl s t

/-- CMP: all three flags are written, by the unsigned order of the two registers, whatever they held; the PC advances by
3; nothing else changes (42_alu.md; that the order is the unsigned one is decision D19). -/
def Obligations.CmpSetsTheFlagsByUnsignedOrder : Prop :=
  ∀ (s : State) (a b : Byte) (ha : a.toNat < 8) (hb : b.toNat < 8), ∃ t, exec (.cmp a b) s = .next t ∧
    ((s.reg ⟨a.toNat, ha⟩).toNat = (s.reg ⟨b.toNat, hb⟩).toNat → t.fl = ⟨.one, .zero, .zero⟩) ∧
    ((s.reg ⟨a.toNat, ha⟩).toNat < (s.reg ⟨b.toNat, hb⟩).toNat → t.fl = ⟨.zero, .one, .zero⟩) ∧
    ((s.reg ⟨b.toNat, hb⟩).toNat < (s.reg ⟨a.toNat, ha⟩).toNat → t.fl = ⟨.zero, .zero, .one⟩) ∧
    sameRegsBut [] s t ∧ t.pc = s.pc + 3 ∧ sameMem s t ∧ sameOutputs s t ∧ sameControl s t

/-- The Flag Set (R27): only CMP writes flags, and it writes all three at once to a one-hot result; only JEQ and JNE read
a flag, and they read `FL.eq` alone; every step keeps the four reachable flag states, which construction starts in. -/
def Obligations.FlagSetRules : Prop :=
  (∀ (i : Instr) (s t : State), exec i s = .next t → isCmp i = false → t.fl = s.fl) ∧
  (∀ (a b : Byte) (s : State), a.toNat < 8 → b.toNat < 8 →
    ∃ t, exec (.cmp a b) s = .next t ∧ t.fl.oneHot = true) ∧
  (∀ (i : Instr) (s : State) (f : Flags), isCmp i = false → (isConditional i = true → f.eq = s.fl.eq) →
    exec i (s.setFl f) = onNext (fun t => t.setFl f) (exec i s)) ∧
  (∀ (a b : Byte) (s : State) (f : Flags), a.toNat < 8 → b.toNat < 8 →
    exec (.cmp a b) (s.setFl f) = exec (.cmp a b) s) ∧
  (∀ s t : State, s.fl.reachable = true → step s = .next t → t.fl.reachable = true) ∧
  (∀ c : Config, (State.construct c).fl = ⟨.uninit, .uninit, .uninit⟩)

/-- The ALU interface (R110): exactly ADD, MUL and CMP are accepted; ADD and MUL write the first register alone, CMP the
flags alone; the result depends on nothing but the two registers; memory, the PC and everything else is untouched. -/
def Obligations.AluInterface : Prop :=
  (∀ (op : AluOp) (a b : RegIdx) (s : State),
    (∃ t, aluApply op a b s = .ok t) ↔ (op = .add ∨ op = .mul ∨ op = .cmp)) ∧
  (∀ (op : AluOp) (a b : RegIdx) (s t : State), aluApply op a b s = .ok t →
    t.mem = s.mem ∧ t.pc = s.pc ∧ sameOutputs s t ∧ sameControl s t ∧
    (op = .cmp → t.regs = s.regs) ∧ (op ≠ .cmp → t.fl = s.fl ∧ sameRegsBut [a.val] s t)) ∧
  (∀ (op : AluOp) (a b : RegIdx) (s s' t t' : State), s.reg a = s'.reg a → s.reg b = s'.reg b →
    aluApply op a b s = .ok t → aluApply op a b s' = .ok t' →
    (op = .cmp → t.fl = t'.fl) ∧ (op ≠ .cmp → t.reg a = t'.reg a))

/-- The ADD capability of the ALU: the low 8 bits of the sum, no flag written (42_alu.md section 3; decisions D1, D5). -/
def Obligations.AluAddKeepsTheLowByte : Prop :=
  ∀ (s : State) (a b : RegIdx), ∃ t, aluApply .add a b s = .ok t ∧
    (t.reg a).toNat = ((s.reg a).toNat + (s.reg b).toNat) % 256 ∧ sameRegsBut [a.val] s t ∧ t.fl = s.fl

/-- An ALU tag other than ADD, MUL and CMP is fatal with that tag and nothing else changes, and no step of a running
machine, from any state at all, ends so (42_alu.md section 4; the unreachability is the spec's own inference). -/
def Obligations.UnsupportedAluOperationIsFatalAndUnreachable : Prop :=
  (∀ (code : Nat) (a b : Byte) (s : State), a.toNat < 8 → b.toNat < 8 →
    aluInstr (.other code) a b s = .next (s.setRun (.fatal (.unsupportedALUOperation code)))) ∧
  (∀ (s t : State) (code : Nat), step s = .next t → t.run ≠ .fatal (.unsupportedALUOperation code))

/-! ### Stack and store -/

/-- PUSH: the stack pointer is decremented modulo 256, the register as it is after the decrement is stored at the new
stack pointer, the PC advances by 2, nothing else changes (43_stack_store.md; the wrap is decision D15, what `PUSH R7`
stores is decision D12). -/
def Obligations.PushStoresBelowTheStackTop : Prop :=
  ∀ (s : State) (r : Byte) (h : r.toNat < 8), (spDown (s.reg SP)).toNat < s.cfg.memSize →
    ∃ t, exec (.push r) s = .next t ∧
      (t.reg SP).toNat = (if (s.reg SP).toNat = 0 then 255 else (s.reg SP).toNat - 1) ∧
      t.reg SP = spDown (s.reg SP) ∧
      (s.memWf = true → t.byteAt (spDown (s.reg SP)).toNat =
        if r.toNat = 7 then spDown (s.reg SP) else s.reg ⟨r.toNat, h⟩) ∧
      sameMemBut (spDown (s.reg SP)).toNat s t ∧ sameRegsBut [7] s t ∧ t.pc = s.pc + 2 ∧ t.fl = s.fl ∧
      sameOutputs s t ∧ sameControl s t

/-- POP: the byte at the stack pointer is written to the register, then the stack pointer is incremented modulo 256 (so
`POP R7` ends with the loaded byte plus 1), the PC advances by 2, nothing else changes and no cell is written
(43_stack_store.md; decisions D12, D15). -/
def Obligations.PopLoadsTheStackTop : Prop :=
  ∀ (s : State) (r : Byte) (h : r.toNat < 8), s.regAddr SP < s.cfg.memSize →
    ∃ t, exec (.pop r) s = .next t ∧
      (r.toNat ≠ 7 → t.reg ⟨r.toNat, h⟩ = s.byteAt (s.regAddr SP) ∧
        (t.reg SP).toNat = ((s.reg SP).toNat + 1) % 256) ∧
      (r.toNat = 7 → (t.reg SP).toNat = ((s.byteAt (s.regAddr SP)).toNat + 1) % 256) ∧
      sameRegsBut [r.toNat, 7] s t ∧ sameMem s t ∧ t.pc = s.pc + 2 ∧ t.fl = s.fl ∧ sameOutputs s t ∧ sameControl s t

/-- ST under `ST_POLICY = store`: the second register is stored at the address the first holds, the PC advances by
`ST_PC_ADVANCE`, nothing else changes (43_stack_store.md; decisions D3, D4). -/
def Obligations.StStoresAtTheRegisterAddress : Prop :=
  ∀ (s : State) (a b : Byte) (ha : a.toNat < 8) (hb : b.toNat < 8), s.cfg.stPolicy = .store →
    s.regAddr ⟨a.toNat, ha⟩ < s.cfg.memSize →
    ∃ t, exec (.st a b) s = .next t ∧ t.pc = s.pc + s.cfg.stPcAdvance ∧
      (s.memWf = true → t.byteAt (s.regAddr ⟨a.toNat, ha⟩) = s.reg ⟨b.toNat, hb⟩) ∧
      sameMemBut (s.regAddr ⟨a.toNat, ha⟩) s t ∧ sameRegsBut [] s t ∧ t.fl = s.fl ∧ sameOutputs s t ∧ sameControl s t

/-- ST under `ST_POLICY = fault`: both indices checked, fatal `UndefinedStoreTarget`, even where the address is outside
the memory, and nothing else changes (43_stack_store.md; decision D3). -/
def Obligations.StUnderTheFaultPolicyIsFatal : Prop :=
  ∀ (s : State) (a b : Byte), a.toNat < 8 → b.toNat < 8 → s.cfg.stPolicy = .fault →
    exec (.st a b) s = .next (s.setRun (.fatal .undefinedStoreTarget))

/-- A data access outside the memory is fatal with its kind and address; PUSH has then already decremented the stack
pointer, POP and ST have changed nothing (60_exceptions.md section 4; decision D11). -/
def Obligations.DataAccessOutOfBoundsIsFatal : Prop :=
  (∀ (s : State) (r : Byte), r.toNat < 8 → s.cfg.memSize ≤ (spDown (s.reg SP)).toNat →
    exec (.push r) s = .next ((s.setReg SP (spDown (s.reg SP))).setRun
      (.fatal (.memoryOutOfBounds .write (spDown (s.reg SP)).toNat)))) ∧
  (∀ (s : State) (r : Byte), r.toNat < 8 → s.cfg.memSize ≤ s.regAddr SP →
    exec (.pop r) s = .next (s.setRun (.fatal (.memoryOutOfBounds .read (s.regAddr SP))))) ∧
  (∀ (s : State) (a b : Byte) (ha : a.toNat < 8), b.toNat < 8 → s.cfg.stPolicy = .store →
    s.cfg.memSize ≤ s.regAddr ⟨a.toNat, ha⟩ →
    exec (.st a b) s = .next (s.setRun (.fatal (.memoryOutOfBounds .write (s.regAddr ⟨a.toNat, ha⟩)))))

/-- PUSH then POP: the popped register takes the byte the push stored and the stack pointer its value before the push;
`POP R7` instead leaves the stored byte plus 1 (43_stack_store.md; decisions D12, D15). -/
def Obligations.PushThenPopRoundTrip : Prop :=
  ∀ (s : State) (r q : Byte) (hr : r.toNat < 8) (hq : q.toNat < 8), s.memWf = true →
    (spDown (s.reg SP)).toNat < s.cfg.memSize →
    ∃ t u, exec (.push r) s = .next t ∧ exec (.pop q) t = .next u ∧
      (q.toNat ≠ 7 → u.reg SP = s.reg SP ∧
        u.reg ⟨q.toNat, hq⟩ = if r.toNat = 7 then spDown (s.reg SP) else s.reg ⟨r.toNat, hr⟩) ∧
      (q.toNat = 7 →
        u.reg SP = if r.toNat = 7 then s.reg SP else spUp (s.reg ⟨r.toNat, hr⟩)) ∧
      sameRegsBut [q.toNat, 7] s u ∧ u.pc = s.pc + 4

/-- The stack is last-in first-out: pushing any registers other than the stack pointer and popping them in the opposite
order restores every register, the stack pointer included, while the stack stays inside the memory and does not wrap
(43_stack_store.md R133, which the spec infers from R130 and R131). -/
def Obligations.StackSaveAndRestore : Prop :=
  ∀ (rs : List Byte) (s : State), (∀ r ∈ rs, r.toNat < 7) → s.run = .running → s.memWf = true →
    rs.length ≤ (s.reg SP).toNat → (s.reg SP).toNat ≤ s.cfg.memSize →
    ∃ t, execAll (rs.map Instr.push ++ rs.reverse.map Instr.pop) s = .next t ∧ t.regs = s.regs ∧
      t.run = .running ∧ t.pc = s.pc + 4 * rs.length ∧ t.fl = s.fl ∧ sameOutputs s t

/-- After ST at an advance of 2 the next step fetches ST's own second operand byte as an opcode: where that byte is HLT's
the machine halts there, and where it is unknown one report is made and the PC stands after ST (43_stack_store.md and
70_reset_and_hazards.md, the ST hazard, which the spec infers; decision D4). The store must not hit that byte itself. -/
def Obligations.ByteAfterStIsItsSecondOperand : Prop :=
  ∀ (s : State) (a b : Byte) (ha : a.toNat < 8) (rest : List Byte), s.run = .running → s.cfg.stPolicy = .store →
    s.cfg.stPcAdvance = 2 → decode s.cfg.opcodes s.window = .ok (.st a b, rest) → b.toNat < 8 →
    s.regAddr ⟨a.toNat, ha⟩ < s.cfg.memSize → s.regAddr ⟨a.toNat, ha⟩ ≠ s.pc + 2 →
    ∃ t, step s = .next t ∧ t.run = .running ∧ t.pc = s.pc + 2 ∧ t.err = s.err ∧
      (s.cfg.opcodes.lookup b = some .hlt →
        ∃ u, step t = .next u ∧ u.run = .halted ∧ u.pc = s.pc + 2 ∧ u.err = s.err) ∧
      (s.cfg.opcodes.lookup b = none →
        ∃ u, step t = .next u ∧ u.run = .running ∧ u.pc = s.pc + 3 ∧ u.err = s.err ++ [⟨s.pc + 2, b⟩])

/-- A store is seen by the very next fetch: when ST or PUSH stores to the address the PC is about to reach, the next step
fetches the stored byte (20_memory.md, instruction-fetch coherence, which the spec infers). -/
def Obligations.StoreIsSeenByTheNextFetch : Prop :=
  (∀ (s : State) (a b : Byte) (ha : a.toNat < 8) (hb : b.toNat < 8), s.run = .running → s.memWf = true →
    s.cfg.stPolicy = .store → s.regAddr ⟨a.toNat, ha⟩ < s.cfg.memSize →
    s.regAddr ⟨a.toNat, ha⟩ = s.pc + s.cfg.stPcAdvance →
    ∃ t u, exec (.st a b) s = .next t ∧ step t = .next u ∧ u.ir = s.reg ⟨b.toNat, hb⟩) ∧
  (∀ (s : State) (r : Byte) (hr : r.toNat < 7), s.run = .running → s.memWf = true →
    (spDown (s.reg SP)).toNat < s.cfg.memSize → (spDown (s.reg SP)).toNat = s.pc + 2 →
    ∃ t u, exec (.push r) s = .next t ∧ step t = .next u ∧ u.ir = s.reg ⟨r.toNat, Nat.lt_succ_of_lt hr⟩)

/-! ### Control -/

/-- JMP: the PC becomes the register's value, any of 0 to 255, unchecked; nothing else changes (44_control.md). -/
def Obligations.JmpGoesToTheRegister : Prop :=
  ∀ (s : State) (r : Byte) (h : r.toNat < 8), ∃ t, exec (.jmp r) s = .next t ∧ t.pc = (s.reg ⟨r.toNat, h⟩).toNat ∧
    sameRegsBut [] s t ∧ t.fl = s.fl ∧ sameMem s t ∧ sameOutputs s t ∧ sameControl s t

/-- JEQ after a compare: taken exactly when the eq flag is 1, else the PC advances by 2; `FL.lt` and `FL.gt` do not
matter and nothing else changes (44_control.md). -/
def Obligations.JeqIsTakenOnEqual : Prop :=
  ∀ (s : State) (r : Byte) (h : r.toNat < 8), s.fl.eq ≠ .uninit → ∃ t, exec (.jeq r) s = .next t ∧
    (s.fl.eq = .one → t.pc = (s.reg ⟨r.toNat, h⟩).toNat) ∧ (s.fl.eq = .zero → t.pc = s.pc + 2) ∧
    sameRegsBut [] s t ∧ t.fl = s.fl ∧ sameMem s t ∧ sameOutputs s t ∧ sameControl s t

/-- JNE after a compare: taken exactly when the eq flag is 0, else the PC advances by 2; nothing else changes
(44_control.md). -/
def Obligations.JneIsTakenOnNotEqual : Prop :=
  ∀ (s : State) (r : Byte) (h : r.toNat < 8), s.fl.eq ≠ .uninit → ∃ t, exec (.jne r) s = .next t ∧
    (s.fl.eq = .zero → t.pc = (s.reg ⟨r.toNat, h⟩).toNat) ∧ (s.fl.eq = .one → t.pc = s.pc + 2) ∧
    sameRegsBut [] s t ∧ t.fl = s.fl ∧ sameMem s t ∧ sameOutputs s t ∧ sameControl s t

/-- JEQ and JNE before any compare: both fall through by 2 under `FLAG_U_POLICY = fallthrough` with nothing else changed,
and both are fatal `UninitialisedFlagRead` under `fault` (44_control.md; decision D9). -/
def Obligations.ConditionalJumpOnUninitialisedFlag : Prop :=
  ∀ (s : State) (r : Byte), r.toNat < 8 → s.fl.eq = .uninit →
    (s.cfg.flagUPolicy = .fallthrough →
      exec (.jeq r) s = .next (s.advance 2) ∧ exec (.jne r) s = .next (s.advance 2)) ∧
    (s.cfg.flagUPolicy = .fault →
      exec (.jeq r) s = .next (s.setRun (.fatal .uninitialisedFlagRead)) ∧
      exec (.jne r) s = .next (s.setRun (.fatal .uninitialisedFlagRead)))

/-- HLT: `RUN` becomes halted; the PC stays at HLT's address and everything else is kept (44_control.md; the PC is
decision D16). -/
def Obligations.HltHalts : Prop :=
  ∀ s : State, ∃ t, exec .hlt s = .next t ∧ t.run = .halted ∧ t.pc = s.pc ∧ sameRegsBut [] s t ∧ t.fl = s.fl ∧
    sameMem s t ∧ sameOutputs s t ∧ t.ir = s.ir ∧ t.cfg = s.cfg

/-- Only HLT halts: a step that ends halted fetched HLT's opcode byte, and a step that fetches it halts with the PC where
it was (10_state.md section 5, 40_execution_cycle.md section 3; the PC is decision D16). -/
def Obligations.OnlyHltHalts : Prop :=
  (∀ s t : State, step s = .next t → t.run = .halted → s.cfg.opcodes.lookup (s.byteAt s.pc) = some .hlt) ∧
  (∀ s : State, s.run = .running → s.pc < s.cfg.memSize → s.cfg.opcodes.lookup (s.byteAt s.pc) = some .hlt →
    ∃ t, step s = .next t ∧ t.run = .halted ∧ t.pc = s.pc)

/-- A jump to its own address runs for ever and changes nothing but `IR` (44_control.md and 40_execution_cycle.md section
3). -/
def Obligations.SelfJumpRunsForEver : Prop :=
  ∀ (s : State) (r : Byte) (h : r.toNat < 8) (rest : List Byte), s.run = .running →
    decode s.cfg.opcodes s.window = .ok (.jmp r, rest) → s.regAddr ⟨r.toNat, h⟩ = s.pc →
    runsForever s ∧ ∀ n t, runsTo n s t → t.setIr s.ir = s

/-! ### Register operands, and what every instruction keeps -/

/-- An operand byte of 8 to 255 that names a register is fatal before the instruction has any effect, and no instruction
whose register bytes are 0 to 7 stops so (R173). -/
def Obligations.IllegalRegisterIndexIsFatal : Prop :=
  (∀ (i : Instr) (s : State), i.wf = false → ∃ b ∈ i.regOperands, 8 ≤ b.toNat ∧
    exec i s = .next (s.setRun (.fatal (.registerIndexOutOfRange b)))) ∧
  (∀ (i : Instr) (s t : State) (b : Byte), i.wf = true → s.run = .running → exec i s = .next t →
    t.run ≠ .fatal (.registerIndexOutOfRange b))

/-- The illegal register byte reported is the first in operand order, before any policy fault or data access
(40_execution_cycle.md, 60_exceptions.md section 3; the order is decision D10). -/
def Obligations.FirstIllegalOperandIsReported : Prop :=
  ∀ (i : Instr) (s : State) (b : Byte), i.regOperands.find? (fun x => decide (8 ≤ x.toNat)) = some b →
    exec i s = .next (s.setRun (.fatal (.registerIndexOutOfRange b)))

/-- The register table (10_state.md section 1): an instruction leaves every register it does not list as written, and a
register it neither reads nor writes has no part in what it does. -/
def Obligations.RegistersReadAndWritten : Prop :=
  (∀ (i : Instr) (s t : State), exec i s = .next t → sameRegsBut (regsWritten i) s t) ∧
  (∀ (i : Instr) (s : State) (j : RegIdx) (v : Byte), j.val ∉ regsRead i → j.val ∉ regsWritten i →
    exec i (s.setReg j v) = onNext (fun t => t.setReg j v) (exec i s))

/-- The memory table (20_memory.md section 1): only PUSH and ST change memory, and only the byte at the address they store
to, which is the decremented stack pointer or the first register's value. -/
def Obligations.MemoryIsWrittenOnlyByPushAndSt : Prop :=
  ∀ (i : Instr) (s t : State), exec i s = .next t →
    ∀ a, storesAt i s ≠ some a → t.byteAt a = s.byteAt a

/-- The outputs only grow (10_state.md section 8; decision D14): no instruction adds to `ERR`, only PRN adds to `OUT` and
it adds its register, and a step of any kind adds at most one element in all. -/
def Obligations.OutputsOnlyGrow : Prop :=
  (∀ (i : Instr) (s t : State), exec i s = .next t → t.err = s.err) ∧
  (∀ (i : Instr) (s t : State), exec i s = .next t →
    t.out = s.out ∨ ∃ r, i = .prn r ∧ t.out = s.out ++ [s.reg (regOf r)]) ∧
  (∀ s t : State, step s = .next t → s.out <+: t.out ∧ s.err <+: t.err ∧
    t.out.length + t.err.length ≤ s.out.length + s.err.length + 1)

/-- The PC table (10_state.md section 2): how each instruction leaves the PC when it is not fatal, with no alignment and
no wrap; an unknown opcode adds 1; a PC past the last cell is fatal at the next fetch. -/
def Obligations.PcAfterEachInstruction : Prop :=
  (∀ (i : Instr) (s t : State), s.run = .running → exec i s = .next t → t.run.isFatal = false →
    t.pc = nextPc i s) ∧
  (∀ s t : State, step s = .next t → s.pc < s.cfg.memSize → s.cfg.opcodes.lookup (s.byteAt s.pc) = none →
    t.pc = s.pc + 1) ∧
  (∀ s t : State, step s = .next t → s.cfg.memSize ≤ s.pc → t.run = .fatal (.memoryOutOfBounds .fetch s.pc))

/-- Every instruction answers a next state from every state, and so does every step of a running machine: nothing is
refused and no step is missing (40_execution_cycle.md section 2). -/
def Obligations.EveryRunningStepHasANextState : Prop :=
  (∀ (i : Instr) (s : State), ∃ t, exec i s = .next t) ∧
  (∀ s : State, s.run = .running → ∃ t, step s = .next t)

/-! ### Memory, invariants, reset -/

/-- The memory primitives (20_memory.md section 1): out of bounds is an error of that kind and address, never clamped or
wrapped, and an out-of-bounds write answers no new state; in bounds a read gives the cell and a write sets that cell
alone. At 255 cells the out-of-bounds addresses that arise are 255 for data and 255 to 257 for fetch and operands. The
canonical list form (`memWf`), which the write clause assumes and concludes, is the model's own choice of how to hold the
memory (log entry 6, DESIGN CHOICE) and no rule of the spec; `StepKeepsTheInvariant` says that every step keeps it. -/
def Obligations.MemoryPrimitives : Prop :=
  (∀ (s : State) (k : AccessKind) (a : Nat), s.cfg.memSize ≤ a → s.memRead k a = .error (.memoryOutOfBounds k a)) ∧
  (∀ (s : State) (k : AccessKind) (a : Nat), a < s.cfg.memSize → s.memRead k a = .ok (s.byteAt a)) ∧
  (∀ (s : State) (a : Nat) (v : Byte), s.cfg.memSize ≤ a → s.memWrite a v = .error (.memoryOutOfBounds .write a)) ∧
  (∀ (s : State) (a : Nat) (v : Byte), a < s.cfg.memSize → s.memWf = true →
    ∃ t, s.memWrite a v = .ok t ∧ t.byteAt a = v ∧ sameMemBut a s t ∧ t.memWf = true ∧ t = { s with mem := t.mem }) ∧
  (∀ (s t : State) (k : AccessKind) (a : Nat), s.Inv → s.cfg.memSize = 255 → step s = .next t →
    t.run = .fatal (.memoryOutOfBounds k a) →
    255 ≤ a ∧ a ≤ 257 ∧ (k = .read ∨ k = .write → a = 255))

/-- Every step keeps the invariant: legal parameters, memory canonical and inside 0 to `MEM_SIZE`-1, PC at most
`MEM_SIZE`+2, flags in a reachable state (10_state.md, 20_memory.md; the canonical form is the model's own). -/
def Obligations.StepKeepsTheInvariant : Prop :=
  ∀ s t : State, s.Inv → step s = .next t → t.Inv

/-- The invariant holds right after reset. -/
def Obligations.ResetMeetsTheInvariant : Prop := State.reset.Inv

/-- The invariant holds after construction under any legal parameters and the load of any image that fits, so every run
of the machine starts in it (70_reset_and_hazards.md section 1). -/
def Obligations.LoadedStateMeetsTheInvariant : Prop :=
  ∀ (c : Config) (image : List Byte), c.legal → image.length ≤ c.memSize →
    ∃ s, (State.construct c).load image = .next s ∧ s.Inv ∧ s.run = .running ∧ s.pc = 0

/-- The values at reset (10_state.md section 10): for any parameters the registers, the PC, the flags, `RUN`, the memory
and the outputs, and at the spec's own values the stack pointer 0xF4, the other registers 0x00, 255 cells of 0x00
(decisions D2, D6, D7 and D14 of the spec; log entries 2, 5, 6, 9). The IR is not stated: it is unspecified. -/
def Obligations.ResetValues : Prop :=
  (∀ c : Config, (State.construct c).reg SP = c.spReset ∧
    (∀ j : RegIdx, j ≠ SP → (State.construct c).reg j = c.rReset) ∧ (State.construct c).pc = 0 ∧
    (State.construct c).fl = ⟨.uninit, .uninit, .uninit⟩ ∧ (State.construct c).run = .running ∧
    (∀ a, (State.construct c).byteAt a = c.memFill) ∧ (State.construct c).out = [] ∧ (State.construct c).err = []) ∧
  State.reset.reg SP = 0xF4#8 ∧ (∀ j : RegIdx, j ≠ SP → State.reset.reg j = 0x00#8) ∧
  State.reset.cfg.memSize = 255 ∧ (∀ a, State.reset.byteAt a = 0x00#8)

/-- The core's contract with the loader (R71): an image of at most `MEM_SIZE` bytes stands from address 0 on, and every
other cell holds `MEM_FILL`. -/
def Obligations.LoadedImageStandsFromZero : Prop :=
  ∀ (c : Config) (image : List Byte), image.length ≤ c.memSize →
    ∃ s, (State.construct c).load image = .next s ∧
      (∀ (i : Nat) (h : i < image.length), s.byteAt i = image[i]) ∧
      (∀ i, image.length ≤ i → s.byteAt i = c.memFill)

/-! ### The whole machine -/

/-- No step changes the Opcode Table or any other parameter (10_state.md R30 on the table; that the parameters stand in
the state is the model's layout, log entry 1). -/
def Obligations.ParametersNeverChange : Prop :=
  ∀ s t : State, step s = .next t → t.cfg = s.cfg

/-- A step cannot tell apart two states that agree on the registers, the PC, `FL.eq`, `RUN`, the memory and the
parameters: nothing reads `IR`, `FL.lt`, `FL.gt`, `OUT` or `ERR`. The two next states agree again and the same outputs
are appended (10_state.md R25, R27, R31, R32; 40_execution_cycle.md section 2). -/
def Obligations.UnreadStateHasNoInfluence : Prop :=
  ∀ s t s' : State, agreeOnReadable s t → step s = .next s' →
    ∃ t', step t = .next t' ∧ agreeOnReadable s' t' ∧
      ∃ o e, s'.out = s.out ++ o ∧ t'.out = t.out ++ o ∧ s'.err = s.err ++ e ∧ t'.err = t.err ++ e

/-- The state a fatal step leaves (60_exceptions.md section 4; decision D11): memory, outputs, flags and PC are as they
were, and the registers too, except that a PUSH fatal at its store has decremented the stack pointer. -/
def Obligations.FatalStepLeavesTheStateButForPush : Prop :=
  ∀ (s t : State) (k : FatalKind), step s = .next t → t.run = .fatal k →
    t.mem = s.mem ∧ t.out = s.out ∧ t.err = s.err ∧ t.fl = s.fl ∧ t.pc = s.pc ∧
    (t.regs = s.regs ∨
      (s.cfg.opcodes.lookup (s.byteAt s.pc) = some .push ∧
        k = .memoryOutOfBounds .write (spDown (s.reg SP)).toNat ∧
        t.reg SP = spDown (s.reg SP) ∧ sameRegsBut [7] s t))

/-- Unknown bytes alone run to the end of memory (40_execution_cycle.md R92, which the spec infers): from address `a` on
that takes `MEM_SIZE - a` steps and as many reports, in address order, nothing else changes, and the next step is fatal
at the fetch of `MEM_SIZE`. -/
def Obligations.UnknownBytesRunToTheEndOfMemory : Prop :=
  ∀ s : State, s.run = .running → s.pc ≤ s.cfg.memSize →
    (∀ a, s.pc ≤ a → a < s.cfg.memSize → s.cfg.opcodes.lookup (s.byteAt a) = none) →
    ∃ t, runsTo (s.cfg.memSize - s.pc) s t ∧ t.run = .running ∧ t.pc = s.cfg.memSize ∧
      t.err = s.err ++ (List.range (s.cfg.memSize - s.pc)).map (fun k => ⟨s.pc + k, s.byteAt (s.pc + k)⟩) ∧
      t.regs = s.regs ∧ t.fl = s.fl ∧ t.mem = s.mem ∧ t.out = s.out ∧
      step t = .next (t.setRun (.fatal (.memoryOutOfBounds .fetch s.cfg.memSize)))

/-- A run has exactly one of three shapes (R90): it halts, it stops fatally, or it is infinite with every state running;
the three exclude each other, and no fuel or step count is part of the machine. -/
def Obligations.RunsHaveThreeShapes : Prop :=
  ∀ s : State, s.run = .running →
    (halts s ∨ stopsFatally s ∨ runsForever s) ∧
    ¬ (halts s ∧ stopsFatally s) ∧ ¬ (halts s ∧ runsForever s) ∧ ¬ (stopsFatally s ∧ runsForever s)
end

