-- ==== Sys2Proof/Laws/Decode.lean ====
section
/-! SUPPORT. The small lemmas of the decoder: what the table lookup finds and what it takes it from. -/

namespace Sys2Proof

/-- The lookup finds a tag only under that tag's own byte. -/
theorem OpcodeTable.byteOf_of_lookup {t : OpcodeTable} {b : Byte} {tag : Tag} (h : t.lookup b = some tag) :
    t.byteOf tag = b := by
  unfold OpcodeTable.lookup at h
  repeat' split at h
  all_goals first
    | (cases h; simp_all [OpcodeTable.byteOf])
    | cases h

/-- The bytes of the table are the bytes of the tags. -/
theorem OpcodeTable.byteOf_mem (t : OpcodeTable) (tag : Tag) : t.byteOf tag ∈ t.bytes := by
  cases tag <;> simp [OpcodeTable.byteOf, OpcodeTable.bytes]

/-- Assembling the operands of an instruction under its tag gives it back. -/
theorem Instr.assemble_tag_operands (i : Instr) (x y : Byte) :
    i.tag.assemble (i.operands.getD 0 x) (i.operands.getD 1 y) = i := by
  cases i <;> rfl

end Sys2Proof
end

