-- ==== Sys2Proof/Laws/State.lean ====
section
/-! SUPPORT. One lemma per field per update of State, true by rfl, and what a register and a byte of memory read after
each update, so that no later proof unfolds a record update. -/

namespace Sys2Proof.Machine.State

variable (s : State)

/-! ### setReg -/

@[simp] theorem setReg_cfg (i : RegIdx) (v : Byte) : (s.setReg i v).cfg = s.cfg := rfl
@[simp] theorem setReg_regs (i : RegIdx) (v : Byte) : (s.setReg i v).regs = s.regs.set i v := rfl
@[simp] theorem setReg_pc (i : RegIdx) (v : Byte) : (s.setReg i v).pc = s.pc := rfl
@[simp] theorem setReg_ir (i : RegIdx) (v : Byte) : (s.setReg i v).ir = s.ir := rfl
@[simp] theorem setReg_fl (i : RegIdx) (v : Byte) : (s.setReg i v).fl = s.fl := rfl
@[simp] theorem setReg_run (i : RegIdx) (v : Byte) : (s.setReg i v).run = s.run := rfl
@[simp] theorem setReg_mem (i : RegIdx) (v : Byte) : (s.setReg i v).mem = s.mem := rfl
@[simp] theorem setReg_out (i : RegIdx) (v : Byte) : (s.setReg i v).out = s.out := rfl
@[simp] theorem setReg_err (i : RegIdx) (v : Byte) : (s.setReg i v).err = s.err := rfl
@[simp] theorem setReg_byteAt (i : RegIdx) (v : Byte) (a : Nat) : (s.setReg i v).byteAt a = s.byteAt a := rfl
@[simp] theorem setReg_memWf (i : RegIdx) (v : Byte) : (s.setReg i v).memWf = s.memWf := rfl
@[simp] theorem setReg_memRead (i : RegIdx) (v : Byte) (k : AccessKind) (a : Nat) :
    (s.setReg i v).memRead k a = s.memRead k a := rfl

/-! ### setFl -/

@[simp] theorem setFl_cfg (f : Flags) : (s.setFl f).cfg = s.cfg := rfl
@[simp] theorem setFl_regs (f : Flags) : (s.setFl f).regs = s.regs := rfl
@[simp] theorem setFl_pc (f : Flags) : (s.setFl f).pc = s.pc := rfl
@[simp] theorem setFl_ir (f : Flags) : (s.setFl f).ir = s.ir := rfl
@[simp] theorem setFl_fl (f : Flags) : (s.setFl f).fl = f := rfl
@[simp] theorem setFl_run (f : Flags) : (s.setFl f).run = s.run := rfl
@[simp] theorem setFl_mem (f : Flags) : (s.setFl f).mem = s.mem := rfl
@[simp] theorem setFl_out (f : Flags) : (s.setFl f).out = s.out := rfl
@[simp] theorem setFl_err (f : Flags) : (s.setFl f).err = s.err := rfl
@[simp] theorem setFl_reg (f : Flags) (j : RegIdx) : (s.setFl f).reg j = s.reg j := rfl
@[simp] theorem setFl_regAddr (f : Flags) (j : RegIdx) : (s.setFl f).regAddr j = s.regAddr j := rfl
@[simp] theorem setFl_byteAt (f : Flags) (a : Nat) : (s.setFl f).byteAt a = s.byteAt a := rfl
@[simp] theorem setFl_memWf (f : Flags) : (s.setFl f).memWf = s.memWf := rfl
@[simp] theorem setFl_memRead (f : Flags) (k : AccessKind) (a : Nat) :
    (s.setFl f).memRead k a = s.memRead k a := rfl

/-! ### setPc -/

@[simp] theorem setPc_cfg (n : Nat) : (s.setPc n).cfg = s.cfg := rfl
@[simp] theorem setPc_regs (n : Nat) : (s.setPc n).regs = s.regs := rfl
@[simp] theorem setPc_pc (n : Nat) : (s.setPc n).pc = n := rfl
@[simp] theorem setPc_ir (n : Nat) : (s.setPc n).ir = s.ir := rfl
@[simp] theorem setPc_fl (n : Nat) : (s.setPc n).fl = s.fl := rfl
@[simp] theorem setPc_run (n : Nat) : (s.setPc n).run = s.run := rfl
@[simp] theorem setPc_mem (n : Nat) : (s.setPc n).mem = s.mem := rfl
@[simp] theorem setPc_out (n : Nat) : (s.setPc n).out = s.out := rfl
@[simp] theorem setPc_err (n : Nat) : (s.setPc n).err = s.err := rfl
@[simp] theorem setPc_reg (n : Nat) (j : RegIdx) : (s.setPc n).reg j = s.reg j := rfl
@[simp] theorem setPc_regAddr (n : Nat) (j : RegIdx) : (s.setPc n).regAddr j = s.regAddr j := rfl
@[simp] theorem setPc_byteAt (n : Nat) (a : Nat) : (s.setPc n).byteAt a = s.byteAt a := rfl
@[simp] theorem setPc_memWf (n : Nat) : (s.setPc n).memWf = s.memWf := rfl
@[simp] theorem setPc_memRead (n : Nat) (k : AccessKind) (a : Nat) :
    (s.setPc n).memRead k a = s.memRead k a := rfl

/-! ### advance -/

@[simp] theorem advance_cfg (n : Nat) : (s.advance n).cfg = s.cfg := rfl
@[simp] theorem advance_regs (n : Nat) : (s.advance n).regs = s.regs := rfl
@[simp] theorem advance_pc (n : Nat) : (s.advance n).pc = s.pc + n := rfl
@[simp] theorem advance_ir (n : Nat) : (s.advance n).ir = s.ir := rfl
@[simp] theorem advance_fl (n : Nat) : (s.advance n).fl = s.fl := rfl
@[simp] theorem advance_run (n : Nat) : (s.advance n).run = s.run := rfl
@[simp] theorem advance_mem (n : Nat) : (s.advance n).mem = s.mem := rfl
@[simp] theorem advance_out (n : Nat) : (s.advance n).out = s.out := rfl
@[simp] theorem advance_err (n : Nat) : (s.advance n).err = s.err := rfl
@[simp] theorem advance_reg (n : Nat) (j : RegIdx) : (s.advance n).reg j = s.reg j := rfl
@[simp] theorem advance_regAddr (n : Nat) (j : RegIdx) : (s.advance n).regAddr j = s.regAddr j := rfl
@[simp] theorem advance_byteAt (n : Nat) (a : Nat) : (s.advance n).byteAt a = s.byteAt a := rfl
@[simp] theorem advance_memWf (n : Nat) : (s.advance n).memWf = s.memWf := rfl
@[simp] theorem advance_memRead (n : Nat) (k : AccessKind) (a : Nat) :
    (s.advance n).memRead k a = s.memRead k a := rfl

/-! ### setIr -/

@[simp] theorem setIr_cfg (b : Byte) : (s.setIr b).cfg = s.cfg := rfl
@[simp] theorem setIr_regs (b : Byte) : (s.setIr b).regs = s.regs := rfl
@[simp] theorem setIr_pc (b : Byte) : (s.setIr b).pc = s.pc := rfl
@[simp] theorem setIr_ir (b : Byte) : (s.setIr b).ir = b := rfl
@[simp] theorem setIr_fl (b : Byte) : (s.setIr b).fl = s.fl := rfl
@[simp] theorem setIr_run (b : Byte) : (s.setIr b).run = s.run := rfl
@[simp] theorem setIr_mem (b : Byte) : (s.setIr b).mem = s.mem := rfl
@[simp] theorem setIr_out (b : Byte) : (s.setIr b).out = s.out := rfl
@[simp] theorem setIr_err (b : Byte) : (s.setIr b).err = s.err := rfl
@[simp] theorem setIr_reg (b : Byte) (j : RegIdx) : (s.setIr b).reg j = s.reg j := rfl
@[simp] theorem setIr_regAddr (b : Byte) (j : RegIdx) : (s.setIr b).regAddr j = s.regAddr j := rfl
@[simp] theorem setIr_byteAt (b : Byte) (a : Nat) : (s.setIr b).byteAt a = s.byteAt a := rfl
@[simp] theorem setIr_memWf (b : Byte) : (s.setIr b).memWf = s.memWf := rfl
@[simp] theorem setIr_memRead (b : Byte) (k : AccessKind) (a : Nat) :
    (s.setIr b).memRead k a = s.memRead k a := rfl

/-! ### setRun -/

@[simp] theorem setRun_cfg (r : Run) : (s.setRun r).cfg = s.cfg := rfl
@[simp] theorem setRun_regs (r : Run) : (s.setRun r).regs = s.regs := rfl
@[simp] theorem setRun_pc (r : Run) : (s.setRun r).pc = s.pc := rfl
@[simp] theorem setRun_ir (r : Run) : (s.setRun r).ir = s.ir := rfl
@[simp] theorem setRun_fl (r : Run) : (s.setRun r).fl = s.fl := rfl
@[simp] theorem setRun_run (r : Run) : (s.setRun r).run = r := rfl
@[simp] theorem setRun_mem (r : Run) : (s.setRun r).mem = s.mem := rfl
@[simp] theorem setRun_out (r : Run) : (s.setRun r).out = s.out := rfl
@[simp] theorem setRun_err (r : Run) : (s.setRun r).err = s.err := rfl
@[simp] theorem setRun_reg (r : Run) (j : RegIdx) : (s.setRun r).reg j = s.reg j := rfl
@[simp] theorem setRun_regAddr (r : Run) (j : RegIdx) : (s.setRun r).regAddr j = s.regAddr j := rfl
@[simp] theorem setRun_byteAt (r : Run) (a : Nat) : (s.setRun r).byteAt a = s.byteAt a := rfl
@[simp] theorem setRun_memWf (r : Run) : (s.setRun r).memWf = s.memWf := rfl
@[simp] theorem setRun_memRead (r : Run) (k : AccessKind) (a : Nat) :
    (s.setRun r).memRead k a = s.memRead k a := rfl

/-! ### emitOut -/

@[simp] theorem emitOut_cfg (v : Byte) : (s.emitOut v).cfg = s.cfg := rfl
@[simp] theorem emitOut_regs (v : Byte) : (s.emitOut v).regs = s.regs := rfl
@[simp] theorem emitOut_pc (v : Byte) : (s.emitOut v).pc = s.pc := rfl
@[simp] theorem emitOut_ir (v : Byte) : (s.emitOut v).ir = s.ir := rfl
@[simp] theorem emitOut_fl (v : Byte) : (s.emitOut v).fl = s.fl := rfl
@[simp] theorem emitOut_run (v : Byte) : (s.emitOut v).run = s.run := rfl
@[simp] theorem emitOut_mem (v : Byte) : (s.emitOut v).mem = s.mem := rfl
@[simp] theorem emitOut_out (v : Byte) : (s.emitOut v).out = s.out ++ [v] := rfl
@[simp] theorem emitOut_err (v : Byte) : (s.emitOut v).err = s.err := rfl
@[simp] theorem emitOut_reg (v : Byte) (j : RegIdx) : (s.emitOut v).reg j = s.reg j := rfl
@[simp] theorem emitOut_regAddr (v : Byte) (j : RegIdx) : (s.emitOut v).regAddr j = s.regAddr j := rfl
@[simp] theorem emitOut_byteAt (v : Byte) (a : Nat) : (s.emitOut v).byteAt a = s.byteAt a := rfl
@[simp] theorem emitOut_memWf (v : Byte) : (s.emitOut v).memWf = s.memWf := rfl
@[simp] theorem emitOut_memRead (v : Byte) (k : AccessKind) (a : Nat) :
    (s.emitOut v).memRead k a = s.memRead k a := rfl

/-! ### emitErr -/

@[simp] theorem emitErr_cfg (r : Report) : (s.emitErr r).cfg = s.cfg := rfl
@[simp] theorem emitErr_regs (r : Report) : (s.emitErr r).regs = s.regs := rfl
@[simp] theorem emitErr_pc (r : Report) : (s.emitErr r).pc = s.pc := rfl
@[simp] theorem emitErr_ir (r : Report) : (s.emitErr r).ir = s.ir := rfl
@[simp] theorem emitErr_fl (r : Report) : (s.emitErr r).fl = s.fl := rfl
@[simp] theorem emitErr_run (r : Report) : (s.emitErr r).run = s.run := rfl
@[simp] theorem emitErr_mem (r : Report) : (s.emitErr r).mem = s.mem := rfl
@[simp] theorem emitErr_out (r : Report) : (s.emitErr r).out = s.out := rfl
@[simp] theorem emitErr_err (r : Report) : (s.emitErr r).err = s.err ++ [r] := rfl
@[simp] theorem emitErr_reg (r : Report) (j : RegIdx) : (s.emitErr r).reg j = s.reg j := rfl
@[simp] theorem emitErr_regAddr (r : Report) (j : RegIdx) : (s.emitErr r).regAddr j = s.regAddr j := rfl
@[simp] theorem emitErr_byteAt (r : Report) (a : Nat) : (s.emitErr r).byteAt a = s.byteAt a := rfl
@[simp] theorem emitErr_memWf (r : Report) : (s.emitErr r).memWf = s.memWf := rfl
@[simp] theorem emitErr_memRead (r : Report) (k : AccessKind) (a : Nat) :
    (s.emitErr r).memRead k a = s.memRead k a := rfl

/-! ### Registers -/

/-- A register read gives the last value written, and a write to another register does not touch it (R20). -/
theorem setReg_reg (i j : RegIdx) (v : Byte) : (s.setReg i v).reg j = if i = j then v else s.reg j := by
  unfold reg setReg
  simp only [Vector.get_eq_getElem, Vector.getElem_set, Fin.ext_iff]

@[simp] theorem setReg_reg_same (i : RegIdx) (v : Byte) : (s.setReg i v).reg i = v := by
  simp [setReg_reg]

theorem setReg_reg_other {i j : RegIdx} (h : i ≠ j) (v : Byte) : (s.setReg i v).reg j = s.reg j := by
  simp [setReg_reg, h]

/-- Two states with the same registers read alike. -/
theorem reg_congr {s t : State} (h : t.regs = s.regs) (j : RegIdx) : t.reg j = s.reg j := by
  unfold reg
  rw [h]

/-- Writes to two different registers commute. -/
theorem setReg_comm {i j : RegIdx} (h : i ≠ j) (v w : Byte) :
    (s.setReg i v).setReg j w = (s.setReg j w).setReg i v := by
  unfold setReg
  have hne : (i : Nat) ≠ j := fun e => h (Fin.ext e)
  simp [Vector.set_comm _ _ hne]

end Sys2Proof.Machine.State
end

