-- ==== Sys2Proof/Laws/Memory.lean ====
section
/-! SUPPORT. The laws of the memory array: what a read gives after a write, and that every memory operation keeps the
canonical form and the bound (20_memory.md R41, R48). -/

namespace Sys2Proof.Machine.Memory

/-- A memory that lists nothing at or below `a` reads as the fill there. -/
theorem read_below {fill : Byte} {m : Memory} {low a : Nat} (h : wfFrom fill low m = true) (ha : a < low) :
    read fill m a = fill := by
  induction m generalizing low with
  | nil => rfl
  | cons c m ih =>
    obtain ⟨b, w⟩ := c
    simp only [wfFrom, Bool.and_eq_true, decide_eq_true_eq] at h
    have hab : a ≠ b := by omega
    simp only [read, if_neg hab]
    exact ih h.2 (by omega)

/-- Every entry of a canonical memory lies at or above the bound it rises from, so the bound may be lowered. -/
theorem wfFrom_mono {fill : Byte} {m : Memory} {low low' : Nat} (hl : low' ≤ low)
    (h : wfFrom fill low m = true) : wfFrom fill low' m = true := by
  cases m with
  | nil => rfl
  | cons c m =>
    obtain ⟨b, w⟩ := c
    simp only [wfFrom, Bool.and_eq_true, decide_eq_true_eq] at h ⊢
    exact ⟨⟨by omega, h.1.2⟩, h.2⟩

/-- A read after a write to the same address gives the value written. -/
theorem read_write_same {fill : Byte} {m : Memory} {low : Nat} (h : wfFrom fill low m = true) (a : Nat) (v : Byte) :
    read fill (write fill m a v) a = v := by
  induction m generalizing low with
  | nil =>
    by_cases hv : v = fill <;> simp [write, read, hv]
  | cons c m ih =>
    obtain ⟨b, w⟩ := c
    simp only [wfFrom, Bool.and_eq_true, decide_eq_true_eq] at h
    simp only [write]
    split
    · split
      · rename_i hab hv
        have : a ≠ b := by omega
        simp only [read, if_neg this, hv]
        exact read_below h.2 (by omega)
      · simp [read]
    · split
      · rename_i hab
        split
        · rename_i hv
          rw [hv]
          exact read_below h.2 (by omega)
        · simp [read]
      · rename_i _ hab
        simp only [read, if_neg hab]
        exact ih h.2

/-- A write leaves every other address alone, whatever the memory. -/
theorem read_write_other {fill : Byte} (m : Memory) {a x : Nat} (hx : x ≠ a) (v : Byte) :
    read fill (write fill m a v) x = read fill m x := by
  induction m with
  | nil => by_cases hv : v = fill <;> simp [write, read, hv, hx]
  | cons c m ih =>
    obtain ⟨b, w⟩ := c
    simp only [write]
    split
    · split
      · rfl
      · simp [read, hx]
    · split
      · rename_i hab
        subst hab
        split <;> simp [read, hx]
      · simp only [read]
        split
        · rfl
        · exact ih

/-- A write keeps the canonical form. -/
theorem write_wfFrom {fill : Byte} {m : Memory} {low : Nat} (h : wfFrom fill low m = true) {a : Nat} (ha : low ≤ a)
    (v : Byte) : wfFrom fill low (write fill m a v) = true := by
  induction m generalizing low with
  | nil => by_cases hv : v = fill <;> simp [write, wfFrom, hv, ha]
  | cons c m ih =>
    obtain ⟨b, w⟩ := c
    have h' := h
    simp only [wfFrom, Bool.and_eq_true, decide_eq_true_eq] at h
    simp only [write]
    split
    · split
      · exact h'
      · rename_i hab hv
        simp only [wfFrom, Bool.and_eq_true, decide_eq_true_eq]
        exact ⟨⟨ha, hv⟩, ⟨⟨by omega, h.1.2⟩, h.2⟩⟩
    · split
      · rename_i hab
        subst hab
        split
        · exact wfFrom_mono (by omega) h.2
        · rename_i hv
          simp only [wfFrom, Bool.and_eq_true, decide_eq_true_eq]
          exact ⟨⟨ha, hv⟩, h.2⟩
      · simp only [wfFrom, Bool.and_eq_true, decide_eq_true_eq]
        exact ⟨h.1, ih h.2 (by omega)⟩

/-- A write keeps the canonical form. -/
theorem write_wf {fill : Byte} {m : Memory} (h : wf fill m = true) (a : Nat) (v : Byte) :
    wf fill (write fill m a v) = true :=
  write_wfFrom h (Nat.zero_le a) v

/-- A listing is bounded when its first entry is and the rest is. -/
theorem bounded_cons (size b : Nat) (w : Byte) (m : Memory) :
    bounded size ((b, w) :: m) = true ↔ b < size ∧ bounded size m = true := by
  simp [bounded]

/-- A write below the size keeps every listed cell below the size. -/
theorem write_bounded {fill : Byte} {size : Nat} {m : Memory} (h : bounded size m = true) {a : Nat} (ha : a < size)
    (v : Byte) : bounded size (write fill m a v) = true := by
  induction m with
  | nil => by_cases hv : v = fill <;> simp [write, bounded, hv, ha]
  | cons c m ih =>
    obtain ⟨b, w⟩ := c
    have hc := (bounded_cons size b w m).mp h
    simp only [write]
    split
    · split
      · exact h
      · exact (bounded_cons ..).mpr ⟨ha, h⟩
    · split
      · split
        · exact hc.2
        · exact (bounded_cons ..).mpr ⟨ha, hc.2⟩
      · exact (bounded_cons ..).mpr ⟨hc.1, ih hc.2⟩

/-- Placing bytes keeps the canonical form. -/
theorem writeBytes_wf {fill : Byte} {size : Nat} {m : Memory} (h : wf fill m = true) (a : Nat) (vs : List Byte) :
    wf fill (writeBytes fill size m a vs) = true := by
  induction vs generalizing m a with
  | nil => exact h
  | cons v vs ih =>
    simp only [writeBytes]
    split
    · exact ih (write_wf h a v) (a + 1)
    · exact ih h (a + 1)

/-- Placing bytes keeps every listed cell below the size. -/
theorem writeBytes_bounded {fill : Byte} {size : Nat} {m : Memory} (h : bounded size m = true) (a : Nat)
    (vs : List Byte) : bounded size (writeBytes fill size m a vs) = true := by
  induction vs generalizing m a with
  | nil => exact h
  | cons v vs ih =>
    simp only [writeBytes]
    split
    · rename_i ha
      exact ih (write_bounded h ha v) (a + 1)
    · exact ih h (a + 1)

/-- Placing bytes from `a` leaves every address below `a` alone. -/
theorem read_writeBytes_below {fill : Byte} {size : Nat} (m : Memory) {a x : Nat} (hx : x < a) (vs : List Byte) :
    read fill (writeBytes fill size m a vs) x = read fill m x := by
  induction vs generalizing m a with
  | nil => rfl
  | cons v vs ih =>
    simp only [writeBytes]
    rw [ih _ (by omega)]
    split
    · exact read_write_other m (by omega) v
    · rfl

end Sys2Proof.Machine.Memory

namespace Sys2Proof.Machine.State

/-- An in-bounds read gives the byte of the cell (R41). -/
theorem memRead_ok {s : State} {k : AccessKind} {a : Nat} (h : a < s.cfg.memSize) :
    s.memRead k a = .ok (s.byteAt a) := by
  simp [memRead, h]

/-- A read outside the memory is an error of its kind and address (R41). -/
theorem memRead_error {s : State} {k : AccessKind} {a : Nat} (h : s.cfg.memSize ≤ a) :
    s.memRead k a = .error (.memoryOutOfBounds k a) := by
  simp [memRead, Nat.not_lt.mpr h]

/-- All that `MemRead` can answer. -/
theorem memRead_cases (s : State) (k : AccessKind) (a : Nat) :
    (a < s.cfg.memSize ∧ s.memRead k a = .ok (s.byteAt a)) ∨
    (s.cfg.memSize ≤ a ∧ s.memRead k a = .error (.memoryOutOfBounds k a)) := by
  rcases Nat.lt_or_ge a s.cfg.memSize with h | h
  · exact .inl ⟨h, memRead_ok h⟩
  · exact .inr ⟨h, memRead_error h⟩

/-- All that `MemWrite` can answer: a state that differs in the memory alone, or an error. -/
theorem memWrite_cases (s : State) (a : Nat) (v : Byte) :
    (a < s.cfg.memSize ∧ s.memWrite a v = .ok { s with mem := Memory.write s.unlisted s.mem a v }) ∨
    (s.cfg.memSize ≤ a ∧ s.memWrite a v = .error (.memoryOutOfBounds .write a)) := by
  unfold memWrite
  rcases Nat.lt_or_ge a s.cfg.memSize with h | h
  · exact .inl ⟨h, if_pos h⟩
  · exact .inr ⟨h, if_neg (Nat.not_lt.mpr h)⟩

/-- What a write that succeeds leaves: the written byte, every other byte, the canonical form, the bound, and every
field but the memory. -/
theorem memWrite_spec {s t : State} {a : Nat} {v : Byte} (h : s.memWrite a v = .ok t) :
    a < s.cfg.memSize ∧ t = { s with mem := t.mem } ∧
    (s.memWf = true → t.byteAt a = v ∧ t.memWf = true) ∧
    (∀ x, x ≠ a → t.byteAt x = s.byteAt x) ∧
    (Memory.bounded s.cfg.memSize s.mem = true → Memory.bounded t.cfg.memSize t.mem = true) := by
  rcases s.memWrite_cases a v with ⟨ha, e⟩ | ⟨_, e⟩
  · rw [e] at h
    cases h
    exact ⟨ha, rfl, fun hw => ⟨Memory.read_write_same hw a v, Memory.write_wf hw a v⟩,
      fun x hx => Memory.read_write_other s.mem hx v, fun hb => Memory.write_bounded hb ha v⟩
  · rw [e] at h
    cases h

end Sys2Proof.Machine.State
end

