-- ==== Sys2Proof/Laws/Ops.lean ====
section
/-! SUPPORT. One lemma per shared operation that says everything it can do: the operand checks, the ALU, the conditional
test, the operand fetch, the cycle and the step. -/

namespace Sys2Proof.Machine

/-- A byte below 8 names its register (R62). -/
theorem regIdx_ok {b : Byte} (h : b.toNat < 8) : regIdx b = .ok ⟨b.toNat, h⟩ := by
  simp [regIdx, h]

/-- A byte of 8 or more names none (R62, R173). -/
theorem regIdx_error {b : Byte} (h : 8 ≤ b.toNat) : regIdx b = .error (.registerIndexOutOfRange b) := by
  simp [regIdx, Nat.not_lt.mpr h]

/-- All that the check of one register operand can answer. -/
theorem regIdx_cases (b : Byte) :
    (∃ h : b.toNat < 8, regIdx b = .ok ⟨b.toNat, h⟩) ∨
    (8 ≤ b.toNat ∧ regIdx b = .error (.registerIndexOutOfRange b)) := by
  rcases Nat.lt_or_ge b.toNat 8 with h | h
  · exact .inl ⟨h, regIdx_ok h⟩
  · exact .inr ⟨h, regIdx_error h⟩

/-- All that the check of two register operands can answer; op1 is the one reported when both are out of range. -/
theorem regPair_cases (a b : Byte) :
    (∃ (ha : a.toNat < 8) (hb : b.toNat < 8), regPair a b = .ok (⟨a.toNat, ha⟩, ⟨b.toNat, hb⟩)) ∨
    (8 ≤ a.toNat ∧ regPair a b = .error (.registerIndexOutOfRange a)) ∨
    (a.toNat < 8 ∧ 8 ≤ b.toNat ∧ regPair a b = .error (.registerIndexOutOfRange b)) := by
  rcases regIdx_cases a with ⟨ha, ea⟩ | ⟨ha, ea⟩
  · rcases regIdx_cases b with ⟨hb, eb⟩ | ⟨hb, eb⟩
    · exact .inl ⟨ha, hb, by simp [regPair, ea, eb]⟩
    · exact .inr (.inr ⟨ha, hb, by simp [regPair, ea, eb]⟩)
  · exact .inr (.inl ⟨ha, by simp [regPair, ea]⟩)

/-- The result of a compare is one of three, by the order of its operands. -/
theorem compareFlags_cases (x y : Byte) :
    (x.toNat = y.toNat ∧ compareFlags x y = ⟨.one, .zero, .zero⟩) ∨
    (x.toNat < y.toNat ∧ compareFlags x y = ⟨.zero, .one, .zero⟩) ∨
    (y.toNat < x.toNat ∧ compareFlags x y = ⟨.zero, .zero, .one⟩) := by
  unfold compareFlags
  rcases Nat.lt_trichotomy x.toNat y.toNat with h | h | h
  · exact .inr (.inl ⟨h, by rw [if_neg (by omega), if_pos h]⟩)
  · exact .inl ⟨h, if_pos h⟩
  · exact .inr (.inr ⟨h, by rw [if_neg (by omega), if_neg (by omega)]⟩)

/-- All that the ALU can answer (R110, R114). -/
theorem aluApply_cases (op : AluOp) (a b : RegIdx) (s : State) :
    (∃ v, aluApply op a b s = .ok (s.setReg a v)) ∨
    aluApply op a b s = .ok (s.setFl (compareFlags (s.reg a) (s.reg b))) ∨
    (∃ code, op = .other code ∧ aluApply op a b s = .error (.unsupportedALUOperation code)) := by
  cases op with
  | add => exact .inl ⟨_, rfl⟩
  | mul => exact .inl ⟨_, rfl⟩
  | cmp => exact .inr (.inl rfl)
  | other code => exact .inr (.inr ⟨code, rfl, rfl⟩)

/-- All that a conditional jump can do (R151, R152, R154). -/
theorem branchInstr_cases (want : FlagVal) (reg : Byte) (s : State) :
    (8 ≤ reg.toNat ∧ branchInstr want reg s = raise (.registerIndexOutOfRange reg) s) ∨
    (∃ h : reg.toNat < 8, branchInstr want reg s = .next (s.setPc (s.regAddr ⟨reg.toNat, h⟩))) ∨
    branchInstr want reg s = .next (s.advance 2) ∨
    (s.fl.eq = .uninit ∧ branchInstr want reg s = raise .uninitialisedFlagRead s) := by
  rcases regIdx_cases reg with ⟨h, e⟩ | ⟨h, e⟩
  · rcases hb : branchTest s.cfg.flagUPolicy s.fl.eq want with _ | _ | _
    · exact .inr (.inl ⟨h, by simp [branchInstr, e, hb]⟩)
    · exact .inr (.inr (.inl (by simp [branchInstr, e, hb])))
    · refine .inr (.inr (.inr ⟨?_, by simp [branchInstr, e, hb]⟩))
      revert hb
      unfold branchTest
      split
      · intro; assumption
      · split <;> intro hb <;> cases hb
      · split <;> intro hb <;> cases hb
  · exact .inl ⟨h, by simp [branchInstr, e]⟩

/-- All that the operand fetch can answer (R84): the operand bytes the tag has, or the first that does not exist. -/
theorem fetchOperands_cases (tag : Tag) (s : State) :
    (tag.operandCount = 0 ∧ fetchOperands tag s = .ok (0#8, 0#8)) ∨
    (tag.operandCount = 1 ∧ s.pc + 1 < s.cfg.memSize ∧ fetchOperands tag s = .ok (s.byteAt (s.pc + 1), 0#8)) ∨
    (tag.operandCount = 2 ∧ s.pc + 2 < s.cfg.memSize ∧
      fetchOperands tag s = .ok (s.byteAt (s.pc + 1), s.byteAt (s.pc + 2))) ∨
    (1 ≤ tag.operandCount ∧ s.cfg.memSize ≤ s.pc + 1 ∧
      fetchOperands tag s = .error (.memoryOutOfBounds .operand (s.pc + 1))) ∨
    (tag.operandCount = 2 ∧ s.pc + 1 < s.cfg.memSize ∧ s.cfg.memSize ≤ s.pc + 2 ∧
      fetchOperands tag s = .error (.memoryOutOfBounds .operand (s.pc + 2))) := by
  have hcount : tag.operandCount = 0 ∨ tag.operandCount = 1 ∨ tag.operandCount = 2 := by cases tag <;> decide
  rcases hcount with h0 | h1 | h2
  · exact .inl ⟨h0, by simp [fetchOperands, h0]⟩
  · rcases s.memRead_cases .operand (s.pc + 1) with ⟨ha, e⟩ | ⟨ha, e⟩
    · exact .inr (.inl ⟨h1, ha, by simp [fetchOperands, h1, e]⟩)
    · exact .inr (.inr (.inr (.inl ⟨by omega, ha, by simp [fetchOperands, h1, e]⟩)))
  · rcases s.memRead_cases .operand (s.pc + 1) with ⟨ha, e⟩ | ⟨ha, e⟩
    · rcases s.memRead_cases .operand (s.pc + 2) with ⟨hb, e'⟩ | ⟨hb, e'⟩
      · exact .inr (.inr (.inl ⟨h2, hb, by simp [fetchOperands, h2, e, e']⟩))
      · exact .inr (.inr (.inr (.inr ⟨h2, ha, hb, by simp [fetchOperands, h2, e, e']⟩)))
    · exact .inr (.inr (.inr (.inl ⟨by omega, ha, by simp [fetchOperands, h2, e]⟩)))

/-- All that a cycle can do (R80). -/
theorem cycle_cases (s : State) :
    (s.cfg.memSize ≤ s.pc ∧ cycle s = raise (.memoryOutOfBounds .fetch s.pc) s) ∨
    (s.pc < s.cfg.memSize ∧ s.cfg.opcodes.lookup (s.byteAt s.pc) = none ∧
      cycle s = unknownOpcode (s.byteAt s.pc) (s.setIr (s.byteAt s.pc))) ∨
    (∃ tag k, s.pc < s.cfg.memSize ∧ s.cfg.opcodes.lookup (s.byteAt s.pc) = some tag ∧
      fetchOperands tag (s.setIr (s.byteAt s.pc)) = .error k ∧ cycle s = raise k (s.setIr (s.byteAt s.pc))) ∨
    (∃ tag x y, s.pc < s.cfg.memSize ∧ s.cfg.opcodes.lookup (s.byteAt s.pc) = some tag ∧
      fetchOperands tag (s.setIr (s.byteAt s.pc)) = .ok (x, y) ∧
      cycle s = exec (tag.assemble x y) (s.setIr (s.byteAt s.pc))) := by
  unfold cycle
  rcases s.memRead_cases .fetch s.pc with ⟨h, e⟩ | ⟨h, e⟩
  · rw [e]
    simp only [State.setIr_cfg]
    rcases hl : s.cfg.opcodes.lookup (s.byteAt s.pc) with _ | tag
    · exact .inr (.inl ⟨h, rfl, rfl⟩)
    · rcases hf : fetchOperands tag (s.setIr (s.byteAt s.pc)) with k | ⟨x, y⟩
      · exact .inr (.inr (.inl ⟨tag, k, h, rfl, hf, by simp [hf]⟩))
      · exact .inr (.inr (.inr ⟨tag, x, y, h, rfl, hf, by simp [hf]⟩))
  · rw [e]
    exact .inl ⟨h, rfl⟩

/-- The step of a running machine is its cycle. -/
theorem step_running {s : State} (h : s.run = .running) : step s = cycle s := by
  simp [step, h]

/-- A step that answers a next state started from a running machine and is its cycle (R28). -/
theorem step_next {s t : State} (h : step s = .next t) : s.run = .running ∧ cycle s = .next t := by
  unfold step at h
  split at h
  · exact ⟨‹_›, h⟩
  · cases h
  · cases h

end Sys2Proof.Machine
end

