-- ==== Sys2Proof/Laws/Exec.lean ====
section
/-! SUPPORT. The inversion of each meaning: everything a next state of it can be. Later proofs cite these instead of
unfolding a meaning. -/

namespace Sys2Proof.Machine

/-- A next state of `raise` is the state handed over with `RUN` fatal. -/
theorem raise_next {k : FatalKind} {s t : State} (h : raise k s = .next t) : t = s.setRun (.fatal k) := by
  unfold raise at h
  cases h
  rfl

/-- LDI: an illegal index, or the register written. -/
theorem execLdi_next {r v : Byte} {s t : State} (h : execLdi r v s = .next t) :
    (8 ≤ r.toNat ∧ t = s.setRun (.fatal (.registerIndexOutOfRange r))) ∨
    (∃ hr : r.toNat < 8, t = (s.setReg ⟨r.toNat, hr⟩ v).advance 3) := by
  rcases regIdx_cases r with ⟨hr, e⟩ | ⟨hr, e⟩ <;> simp only [execLdi, e] at h
  · cases h
    exact .inr ⟨hr, rfl⟩
  · exact .inl ⟨hr, raise_next h⟩

/-- PRN: an illegal index, or the register emitted. -/
theorem execPrn_next {r : Byte} {s t : State} (h : execPrn r s = .next t) :
    (8 ≤ r.toNat ∧ t = s.setRun (.fatal (.registerIndexOutOfRange r))) ∨
    (∃ hr : r.toNat < 8, t = (s.emitOut (s.reg ⟨r.toNat, hr⟩)).advance 2) := by
  rcases regIdx_cases r with ⟨hr, e⟩ | ⟨hr, e⟩ <;> simp only [execPrn, e] at h
  · cases h
    exact .inr ⟨hr, rfl⟩
  · exact .inl ⟨hr, raise_next h⟩

/-- An ALU instruction: an illegal index (op1 reported first), an unsupported operation, or what the ALU answers. -/
theorem aluInstr_next {op : AluOp} {a b : Byte} {s t : State} (h : aluInstr op a b s = .next t) :
    (8 ≤ a.toNat ∧ t = s.setRun (.fatal (.registerIndexOutOfRange a))) ∨
    (a.toNat < 8 ∧ 8 ≤ b.toNat ∧ t = s.setRun (.fatal (.registerIndexOutOfRange b))) ∨
    (∃ code, op = .other code ∧ t = s.setRun (.fatal (.unsupportedALUOperation code))) ∨
    (∃ (ha : a.toNat < 8) (hb : b.toNat < 8) (u : State),
      aluApply op ⟨a.toNat, ha⟩ ⟨b.toNat, hb⟩ s = .ok u ∧ t = u.advance 3) := by
  rcases regPair_cases a b with ⟨ha, hb, e⟩ | ⟨ha, e⟩ | ⟨ha, hb, e⟩ <;> simp only [aluInstr, e] at h
  · rcases hu : aluApply op ⟨a.toNat, ha⟩ ⟨b.toNat, hb⟩ s with k | u
    · rw [hu] at h
      cases op with
      | other code =>
        cases hu
        exact .inr (.inr (.inl ⟨code, rfl, raise_next h⟩))
      | add => cases hu
      | mul => cases hu
      | cmp => cases hu
    · rw [hu] at h
      cases h
      exact .inr (.inr (.inr ⟨ha, hb, u, hu, rfl⟩))
  · exact .inl ⟨ha, raise_next h⟩
  · exact .inr (.inl ⟨ha, hb, raise_next h⟩)

/-- PUSH: an illegal index, a store out of bounds with the stack pointer decremented, or the register stored. -/
theorem execPush_next {r : Byte} {s t : State} (h : execPush r s = .next t) :
    (8 ≤ r.toNat ∧ t = s.setRun (.fatal (.registerIndexOutOfRange r))) ∨
    (r.toNat < 8 ∧ s.cfg.memSize ≤ (spDown (s.reg SP)).toNat ∧
      t = (s.setReg SP (spDown (s.reg SP))).setRun
        (.fatal (.memoryOutOfBounds .write (spDown (s.reg SP)).toNat))) ∨
    (∃ (hr : r.toNat < 8) (u : State),
      (s.setReg SP (spDown (s.reg SP))).memWrite (spDown (s.reg SP)).toNat
        ((s.setReg SP (spDown (s.reg SP))).reg ⟨r.toNat, hr⟩) = .ok u ∧ t = u.advance 2) := by
  rcases regIdx_cases r with ⟨hr, e⟩ | ⟨hr, e⟩
  · simp only [execPush, e, State.regAddr, State.setReg_reg_same] at h
    rcases (s.setReg SP (spDown (s.reg SP))).memWrite_cases (spDown (s.reg SP)).toNat
        ((s.setReg SP (spDown (s.reg SP))).reg ⟨r.toNat, hr⟩) with ⟨hb, w⟩ | ⟨hb, w⟩
    · rw [w] at h
      cases h
      exact .inr (.inr ⟨hr, _, w, rfl⟩)
    · rw [w] at h
      exact .inr (.inl ⟨hr, hb, raise_next h⟩)
  · simp only [execPush, e] at h
    exact .inl ⟨hr, raise_next h⟩

/-- POP: an illegal index, a load out of bounds, or the register loaded and the stack pointer incremented. -/
theorem execPop_next {r : Byte} {s t : State} (h : execPop r s = .next t) :
    (8 ≤ r.toNat ∧ t = s.setRun (.fatal (.registerIndexOutOfRange r))) ∨
    (r.toNat < 8 ∧ s.cfg.memSize ≤ s.regAddr SP ∧
      t = s.setRun (.fatal (.memoryOutOfBounds .read (s.regAddr SP)))) ∨
    (∃ hr : r.toNat < 8, s.regAddr SP < s.cfg.memSize ∧
      t = (((s.setReg ⟨r.toNat, hr⟩ (s.byteAt (s.regAddr SP))).setReg SP
        (spUp ((s.setReg ⟨r.toNat, hr⟩ (s.byteAt (s.regAddr SP))).reg SP))).advance 2)) := by
  rcases regIdx_cases r with ⟨hr, e⟩ | ⟨hr, e⟩
  · rcases s.memRead_cases .read (s.regAddr SP) with ⟨hb, w⟩ | ⟨hb, w⟩ <;> simp only [execPop, e, w] at h
    · cases h
      exact .inr (.inr ⟨hr, hb, rfl⟩)
    · exact .inr (.inl ⟨hr, hb, raise_next h⟩)
  · simp only [execPop, e] at h
    exact .inl ⟨hr, raise_next h⟩

/-- ST: an illegal index (op1 reported first), the policy fault, a store out of bounds, or the register stored. -/
theorem execSt_next {a b : Byte} {s t : State} (h : execSt a b s = .next t) :
    (8 ≤ a.toNat ∧ t = s.setRun (.fatal (.registerIndexOutOfRange a))) ∨
    (a.toNat < 8 ∧ 8 ≤ b.toNat ∧ t = s.setRun (.fatal (.registerIndexOutOfRange b))) ∨
    (a.toNat < 8 ∧ b.toNat < 8 ∧ s.cfg.stPolicy = .fault ∧ t = s.setRun (.fatal .undefinedStoreTarget)) ∨
    (∃ ha : a.toNat < 8, b.toNat < 8 ∧ s.cfg.stPolicy = .store ∧ s.cfg.memSize ≤ s.regAddr ⟨a.toNat, ha⟩ ∧
      t = s.setRun (.fatal (.memoryOutOfBounds .write (s.regAddr ⟨a.toNat, ha⟩)))) ∨
    (∃ (ha : a.toNat < 8) (hb : b.toNat < 8) (u : State), s.cfg.stPolicy = .store ∧
      s.memWrite (s.regAddr ⟨a.toNat, ha⟩) (s.reg ⟨b.toNat, hb⟩) = .ok u ∧ t = u.advance s.cfg.stPcAdvance) := by
  rcases regPair_cases a b with ⟨ha, hb, e⟩ | ⟨ha, e⟩ | ⟨ha, hb, e⟩
  · rcases hp : s.cfg.stPolicy with _ | _ <;> simp only [execSt, e, hp] at h
    · rcases s.memWrite_cases (s.regAddr ⟨a.toNat, ha⟩) (s.reg ⟨b.toNat, hb⟩) with ⟨hm, w⟩ | ⟨hm, w⟩ <;> rw [w] at h
      · cases h
        exact .inr (.inr (.inr (.inr ⟨ha, hb, _, rfl, w, rfl⟩)))
      · exact .inr (.inr (.inr (.inl ⟨ha, hb, rfl, hm, raise_next h⟩)))
    · exact .inr (.inr (.inl ⟨ha, hb, rfl, raise_next h⟩))
  · simp only [execSt, e] at h
    exact .inl ⟨ha, raise_next h⟩
  · simp only [execSt, e] at h
    exact .inr (.inl ⟨ha, hb, raise_next h⟩)

/-- JMP: an illegal index, or the jump. -/
theorem execJmp_next {r : Byte} {s t : State} (h : execJmp r s = .next t) :
    (8 ≤ r.toNat ∧ t = s.setRun (.fatal (.registerIndexOutOfRange r))) ∨
    (∃ hr : r.toNat < 8, t = s.setPc (s.regAddr ⟨r.toNat, hr⟩)) := by
  rcases regIdx_cases r with ⟨hr, e⟩ | ⟨hr, e⟩ <;> simp only [execJmp, e] at h
  · cases h
    exact .inr ⟨hr, rfl⟩
  · exact .inl ⟨hr, raise_next h⟩

/-- A conditional jump: an illegal index, the jump on a taken test, PC + 2 on one not taken, or the policy fault. -/
theorem branchInstr_next {want : FlagVal} {r : Byte} {s t : State} (h : branchInstr want r s = .next t) :
    (8 ≤ r.toNat ∧ t = s.setRun (.fatal (.registerIndexOutOfRange r))) ∨
    (∃ hr : r.toNat < 8, branchTest s.cfg.flagUPolicy s.fl.eq want = .taken ∧
      t = s.setPc (s.regAddr ⟨r.toNat, hr⟩)) ∨
    (r.toNat < 8 ∧ branchTest s.cfg.flagUPolicy s.fl.eq want = .notTaken ∧ t = s.advance 2) ∨
    (r.toNat < 8 ∧ branchTest s.cfg.flagUPolicy s.fl.eq want = .uninitialised ∧
      t = s.setRun (.fatal .uninitialisedFlagRead)) := by
  rcases regIdx_cases r with ⟨hr, e⟩ | ⟨hr, e⟩
  · rcases hb : branchTest s.cfg.flagUPolicy s.fl.eq want with _ | _ | _ <;> simp only [branchInstr, e, hb] at h
    · cases h
      exact .inr (.inl ⟨hr, rfl, rfl⟩)
    · cases h
      exact .inr (.inr (.inl ⟨hr, rfl, rfl⟩))
    · exact .inr (.inr (.inr ⟨hr, rfl, raise_next h⟩))
  · simp only [branchInstr, e] at h
    exact .inl ⟨hr, raise_next h⟩

/-- HLT: the machine halted. -/
theorem execHlt_next {s t : State} (h : execHlt s = .next t) : t = s.setRun .halted := by
  unfold execHlt at h
  cases h
  rfl

end Sys2Proof.Machine
end

