-- ==== Sys2Proof/Laws/PerInstr.lean ====
section
/-! SUPPORT. The per-instruction family `Encoding`: the bytes of an instruction are the opcode byte of its tag and then
as many operand bytes as the tag has (R60, R61), and its register operands are the operand bytes that R85 lists. -/

namespace Sys2Proof.Laws.Encoding

/-- What is said of one instruction: its encoding is one opcode byte and `operandCount` operand bytes, its register
operands are its operand bytes from the first on, and only LDI has an operand byte that names no register. -/
def Statement (i : Instr) : Prop :=
  (∀ t : OpcodeTable, encode t i = t.byteOf i.tag :: i.operands) ∧
  i.operands.length = i.tag.operandCount ∧
  i.regOperands <+: i.operands ∧
  (i.regOperands = i.operands ∨ i.tag = .ldi)

theorem ldi (r v : Byte) : Statement (.ldi r v) := ⟨fun _ => rfl, rfl, ⟨[v], rfl⟩, .inr rfl⟩
theorem prn (r : Byte) : Statement (.prn r) := ⟨fun _ => rfl, rfl, List.prefix_rfl, .inl rfl⟩
theorem mul (a b : Byte) : Statement (.mul a b) := ⟨fun _ => rfl, rfl, List.prefix_rfl, .inl rfl⟩
theorem cmp (a b : Byte) : Statement (.cmp a b) := ⟨fun _ => rfl, rfl, List.prefix_rfl, .inl rfl⟩
theorem push (r : Byte) : Statement (.push r) := ⟨fun _ => rfl, rfl, List.prefix_rfl, .inl rfl⟩
theorem pop (r : Byte) : Statement (.pop r) := ⟨fun _ => rfl, rfl, List.prefix_rfl, .inl rfl⟩
theorem st (a b : Byte) : Statement (.st a b) := ⟨fun _ => rfl, rfl, List.prefix_rfl, .inl rfl⟩
theorem jmp (r : Byte) : Statement (.jmp r) := ⟨fun _ => rfl, rfl, List.prefix_rfl, .inl rfl⟩
theorem jeq (r : Byte) : Statement (.jeq r) := ⟨fun _ => rfl, rfl, List.prefix_rfl, .inl rfl⟩
theorem jne (r : Byte) : Statement (.jne r) := ⟨fun _ => rfl, rfl, List.prefix_rfl, .inl rfl⟩
theorem hlt : Statement .hlt := ⟨fun _ => rfl, rfl, List.prefix_rfl, .inl rfl⟩

end Sys2Proof.Laws.Encoding
end

