-- ==== Sys2Proof/Tests/Slice0.lean ====
section
/-! SUPPORT. The model's own tests: well-formedness, words written out from the spec's encodings, one-step vectors of
95_test_vectors.md, and for each statement with hypotheses a concrete case that meets them. -/

namespace Sys2Proof.Tests

open Sys2Proof.Machine

/-- The next state an answer holds. -/
def next? : Result → Option State
  | .next t => some t
  | _ => none

/-- Reset with the PC at `p` and `bytes` placed there. -/
def at' (p : Nat) (bytes : List Byte) : State := (State.reset.setPc p).placeAtPc bytes

/-- One observation of the state one step leaves. -/
def after {α : Type} (s : State) (f : State → α) : Option α := (next? (step s)).map f

/-- `s` under other parameters. -/
def withCfg (s : State) (f : Config → Config) : State := { s with cfg := f s.cfg }

/-! ### Well-formedness: an ill-formed term for each check -/

theorem test_wf_ldi_value_free : (Instr.ldi 7#8 0xFF#8).wf = true := by decide
theorem test_wf_ldi_reg : (Instr.ldi 8#8 0#8).wf = false := by decide
theorem test_wf_prn_reg : (Instr.prn 9#8).wf = false := by decide
theorem test_wf_mul_op1 : (Instr.mul 8#8 0#8).wf = false := by decide
theorem test_wf_mul_op2 : (Instr.mul 0#8 8#8).wf = false := by decide
theorem test_wf_cmp_op2 : (Instr.cmp 7#8 255#8).wf = false := by decide
theorem test_wf_push_reg : (Instr.push 8#8).wf = false := by decide
theorem test_wf_pop_reg : (Instr.pop 16#8).wf = false := by decide
theorem test_wf_st_op1 : (Instr.st 8#8 0#8).wf = false := by decide
theorem test_wf_st_op2 : (Instr.st 0#8 8#8).wf = false := by decide
theorem test_wf_jmp_reg : (Instr.jmp 8#8).wf = false := by decide
theorem test_wf_jeq_reg : (Instr.jeq 8#8).wf = false := by decide
theorem test_wf_jne_reg : (Instr.jne 8#8).wf = false := by decide
theorem test_wf_hlt : Instr.hlt.wf = true := by decide
theorem test_config_legal : defaultConfig.legal := by decide
theorem test_config_memSize_257_illegal : ¬ { defaultConfig with memSize := 257 }.legal := by decide
theorem test_config_advance_1_illegal : ¬ { defaultConfig with stPcAdvance := 1 }.legal := by decide
theorem test_config_opcode_twice_illegal :
    ¬ { defaultConfig with opcodes := { defaultOpcodes with prn := 0x01#8 } }.legal := by decide

/-! ### Decoding: words written out from R60 and R64, the first byte lowest -/

theorem test_decode_ldi : decodeTableWord 24 0b00000101_00000000_10000010 = some (.ldi 0#8 5#8) := by decide
theorem test_decode_prn : decodeTableWord 16 0b00000011_01000111 = some (.prn 3#8) := by decide
theorem test_decode_mul : decodeTableWord 24 0b00000001_00000010_10100010 = some (.mul 2#8 1#8) := by decide
theorem test_decode_cmp : decodeTableWord 24 0b00001000_00000111_10100111 = some (.cmp 7#8 8#8) := by decide
theorem test_decode_push : decodeTableWord 16 0b00000111_01000101 = some (.push 7#8) := by decide
theorem test_decode_pop : decodeTableWord 16 0b00000001_01000110 = some (.pop 1#8) := by decide
theorem test_decode_st : decodeTableWord 24 0b00000110_00000100_10000100 = some (.st 4#8 6#8) := by decide
theorem test_decode_jmp : decodeTableWord 16 0b00000011_01010100 = some (.jmp 3#8) := by decide
theorem test_decode_jeq : decodeTableWord 16 0b00000010_01010101 = some (.jeq 2#8) := by decide
theorem test_decode_jne : decodeTableWord 16 0b11111111_01010110 = some (.jne 255#8) := by decide
theorem test_decode_hlt : decodeTableWord 8 0b00000001 = some .hlt := by decide
theorem test_decode_short_word : decodeTableWord 8 0x82 = some (.ldi 0#8 0#8) := by decide
theorem test_decode_add_unknown : decode defaultOpcodes [0xA0#8, 0#8, 1#8] = .error (.unknownOpcode 0xA0#8) := by decide
theorem test_decode_zero_unknown : decode defaultOpcodes [0x00#8] = .error (.unknownOpcode 0x00#8) := by decide
theorem test_decode_no_bytes : decode defaultOpcodes [] = .error .noBytes := by decide
theorem test_decode_missing_operand :
    decode defaultOpcodes [0x82#8, 0#8] = .error (.missingOperand .ldi 1) := by decide

/-! ### One-step vectors (95_test_vectors.md part 2) -/

-- T-V1: 82 00 05 from reset; 82 07 80 overwrites the stack pointer
theorem test_ldi : after (at' 0 [0x82#8, 0#8, 5#8]) (fun t => (t.reg 0, t.pc)) = some (5#8, 3) := by decide
theorem test_ldi_sp : after (at' 0 [0x82#8, 7#8, 0x80#8]) (fun t => (t.reg 7, t.run)) = some (0x80#8, .running) := by
  decide
-- T-V2: 47 07 from reset emits F4; 47 09 is fatal and OUT is unchanged
theorem test_prn_sp : after (at' 0 [0x47#8, 7#8]) (fun t => (t.out, t.pc)) = some ([0xF4#8], 2) := by decide
theorem test_prn_bad : after (at' 0 [0x47#8, 9#8]) (fun t => (t.out, t.run)) =
    some ([], .fatal (.registerIndexOutOfRange 9#8)) := by decide
-- T-V3: FF * FF = FE01; MUL R0,R0 with 0C gives 90
theorem test_mul_overflow : after (((at' 0 [0xA2#8, 1#8, 2#8]).setReg 1 0xFF#8).setReg 2 0xFF#8)
    (fun t => (t.reg 1, t.reg 2, t.pc)) = some (0x01#8, 0xFF#8, 3) := by decide
theorem test_mul_square : after ((at' 0 [0xA2#8, 0#8, 0#8]).setReg 0 0x0C#8) (fun t => t.reg 0) = some 0x90#8 := by
  decide
-- T-V4: 80 against 7F is greater (unsigned); A7 00 08 is fatal and leaves the flags U
theorem test_cmp_unsigned : after (((at' 0 [0xA7#8, 0#8, 1#8]).setReg 0 0x80#8).setReg 1 0x7F#8) (fun t => t.fl) =
    some ⟨.zero, .zero, .one⟩ := by decide
theorem test_cmp_bad : after (at' 0 [0xA7#8, 0#8, 8#8]) (fun t => (t.fl.eq, t.run)) =
    some (.uninit, .fatal (.registerIndexOutOfRange 8#8)) := by decide
-- T-V5: ADD at the ALU's interface, FF + 01 = 00
theorem test_alu_add : (match aluApply .add 0 1 ((State.reset.setReg 0 0xFF#8).setReg 1 1#8) with
    | .ok t => some (t.reg 0)
    | .error _ => none) = some 0x00#8 := by decide
-- T-V6: PUSH R7 stores the decremented value; PUSH with R7 = 00 is fatal with R7 = FF
theorem test_push_sp : after (at' 0 [0x45#8, 7#8]) (fun t => (t.reg 7, t.byteAt 0xF3, t.byteAt 0xF4)) =
    some (0xF3#8, 0xF3#8, 0#8) := by decide
theorem test_push_fatal : after ((at' 0 [0x45#8, 0#8]).setReg 7 0#8) (fun t => (t.reg 7, t.run, t.mem)) =
    some (0xFF#8, .fatal (.memoryOutOfBounds .write 255), [(0, 0x45#8)]) := by decide
-- T-V6: POP R7 with M[20] = 7F leaves 80; POP with R7 = FF is fatal and writes nothing
theorem test_pop_sp : after ((at' 0x1E [0x46#8, 7#8, 0x7F#8]).setReg 7 0x20#8) (fun t => t.reg 7) = some 0x80#8 := by
  decide
theorem test_pop_fatal : after ((at' 0 [0x46#8, 0#8]).setReg 7 0xFF#8) (fun t => (t.reg 7, t.reg 0, t.run)) =
    some (0xFF#8, 0#8, .fatal (.memoryOutOfBounds .read 255)) := by decide
-- T-V7: ST R0,R2 stores and the PC is p + 2; under ST_POLICY = fault it is UndefinedStoreTarget, even at FF
theorem test_st : after (((at' 6 [0x84#8, 0#8, 2#8]).setReg 0 0x20#8).setReg 2 0x2A#8)
    (fun t => (t.byteAt 0x20, t.pc, t.err)) = some (0x2A#8, 8, []) := by decide
theorem test_st_fault_policy : after (withCfg ((at' 0 [0x84#8, 0#8, 1#8]).setReg 0 0xFF#8)
    fun c => { c with stPolicy := .fault }) (fun t => t.run) = some (.fatal .undefinedStoreTarget) := by decide
-- T-V8: JMP to FF completes; JMP with index 09 leaves the PC
theorem test_jmp_ff : after ((at' 0 [0x54#8, 0#8]).setReg 0 0xFF#8) (fun t => (t.pc, t.run)) = some (0xFF, .running) := by
  decide
theorem test_jmp_bad : after (at' 3 [0x54#8, 9#8]) (fun t => (t.pc, t.run)) =
    some (3, .fatal (.registerIndexOutOfRange 9#8)) := by decide
-- T-V8: JEQ taken on (1,0,0), falls through on (U,U,U)
theorem test_jeq_taken : after (((at' 5 [0x55#8, 2#8]).setReg 2 0x13#8).setFl ⟨.one, .zero, .zero⟩) (fun t => t.pc) =
    some 0x13 := by decide
theorem test_jeq_uninit : after ((at' 5 [0x55#8, 2#8]).setReg 2 0x13#8) (fun t => t.pc) = some 7 := by decide
-- T-V8: JNE taken on (0,1,0), fatal on (U,U,U) under the fault policy
theorem test_jne_taken : after (((at' 5 [0x56#8, 2#8]).setReg 2 0x13#8).setFl ⟨.zero, .one, .zero⟩) (fun t => t.pc) =
    some 0x13 := by decide
theorem test_jne_fault_policy : after (withCfg (at' 5 [0x56#8, 2#8]) fun c => { c with flagUPolicy := .fault })
    (fun t => (t.pc, t.run)) = some (5, .fatal .uninitialisedFlagRead) := by decide
-- T-V8, T-V10: HLT leaves the PC, also in the last cell
theorem test_hlt_last_cell : after (at' 0xFE [0x01#8]) (fun t => (t.pc, t.run)) = some (0xFE, .halted) := by decide
-- T-V9: A0 is reported and stepped over; at FE the PC becomes FF
theorem test_unknown : after (at' 0xFE [0xA0#8]) (fun t => (t.err, t.pc, t.run)) =
    some ([⟨0xFE, 0xA0#8⟩], 0xFF, .running) := by decide
-- T-V10: fetch at FF; operand fetch before the index check of 09
theorem test_fetch_fatal : after (State.reset.setPc 0xFF) (fun t => t.run) =
    some (.fatal (.memoryOutOfBounds .fetch 255)) := by decide
theorem test_operand_before_index : after (at' 0xFD [0x82#8, 9#8]) (fun t => (t.run, t.pc)) =
    some (.fatal (.memoryOutOfBounds .operand 255), 0xFD) := by decide
-- T-V10: A7 0A 0B reports 10, not 11
theorem test_op1_first : after (at' 0 [0xA7#8, 0x0A#8, 0x0B#8]) (fun t => t.run) =
    some (.fatal (.registerIndexOutOfRange 10#8)) := by decide
-- T-V6 at MEM_SIZE = 256: PUSH with R7 = 00 writes the top cell
theorem test_push_256 : after (withCfg (((at' 0 [0x45#8, 0#8]).setReg 7 0#8).setReg 0 0x11#8)
    fun c => { c with memSize := 256 }) (fun t => (t.byteAt 0xFF, t.run)) = some (0x11#8, .running) := by decide
-- R71, U17: an image of 3 bytes is loaded; one byte more than the memory has is refused
theorem test_load : (next? (State.reset.load [0x82#8, 0#8, 5#8])).map (fun t => t.mem) =
    some [(0, 0x82#8), (2, 5#8)] := by decide
theorem test_load_too_long :
    next? ((withCfg State.reset fun c => { c with memSize := 2 }).load [1#8, 1#8, 1#8]) = none := by decide
-- the host's check: the placed word is what step runs
theorem test_withFetchWord : after (State.reset.withFetchWord 24 0x050082) (fun t => (t.reg 0, t.pc)) =
    some (5#8, 3) := by decide

/-! ### Witnesses: for each statement with hypotheses, a case that meets them all -/

theorem witness_DecodeOfEncode : defaultOpcodes.distinct := by decide

theorem witness_DecodedBytesAreTheEncoding :
    decode defaultOpcodes [0x47#8, 3#8, 9#8] = .ok (.prn 3#8, [9#8]) := by decide

theorem witness_LookupMatchesWholeByte : defaultOpcodes.distinct ∧ defaultOpcodes.lookup 0xA7#8 = some .cmp ∧
    defaultOpcodes.lookup 0xA6#8 = none := by decide

theorem witness_BytesOutsideTheTableAreUnknown :
    0xFF#8 ∉ defaultOpcodes.bytes ∧ 0x01#8 ∈ defaultOpcodes.bytes := by decide

/-- Also a one-byte instruction in the last cell. -/
theorem witness_StepRunsTheDecodedInstruction :
    ((at' 0 [0x84#8, 0#8, 2#8]).run = .running ∧
      decode defaultOpcodes (at' 0 [0x84#8, 0#8, 2#8]).window = .ok (.st 0#8 2#8, [])) ∧
    ((at' 0xFE [0x01#8]).run = .running ∧ decode defaultOpcodes (at' 0xFE [0x01#8]).window = .ok (.hlt, [])) := by
  decide

theorem witness_FetchStage :
    (State.reset.run = .running ∧ State.reset.pc < State.reset.cfg.memSize) ∧
    ((State.reset.setPc 255).run = .running ∧ (State.reset.setPc 255).cfg.memSize ≤ (State.reset.setPc 255).pc) ∧
    ((State.reset.setPc 254).pc < (State.reset.setPc 254).cfg.memSize) := by decide

theorem witness_UnknownOpcodeIsSteppedOver :
    (at' 0xFE [0xA0#8]).run = .running ∧ (at' 0xFE [0xA0#8]).pc < (at' 0xFE [0xA0#8]).cfg.memSize ∧
    (at' 0xFE [0xA0#8]).cfg.opcodes.lookup ((at' 0xFE [0xA0#8]).byteAt (at' 0xFE [0xA0#8]).pc) = none := by decide

theorem witness_UnknownOpcodeReportHoldsAddressAndByte :
    State.reset.run = .running ∧ State.reset.pc < State.reset.cfg.memSize ∧
    State.reset.cfg.opcodes.lookup (State.reset.byteAt State.reset.pc) = none := by decide

/-- PRN in the last cell misses its first operand, LDI in the last cell but one its second. -/
theorem witness_OperandFetchOutOfBounds :
    ((at' 0xFE [0x47#8]).run = .running ∧ (at' 0xFE [0x47#8]).pc < 255 ∧ (at' 0xFE [0x47#8]).cfg.memSize = 255 ∧
      (at' 0xFE [0x47#8]).cfg.opcodes.lookup ((at' 0xFE [0x47#8]).byteAt 0xFE) = some .prn ∧
      1 ≤ Tag.prn.operandCount ∧ 255 ≤ (at' 0xFE [0x47#8]).pc + 1) ∧
    ((at' 0xFD [0x82#8, 9#8]).run = .running ∧ (at' 0xFD [0x82#8, 9#8]).cfg.memSize = 255 ∧
      (at' 0xFD [0x82#8, 9#8]).cfg.opcodes.lookup ((at' 0xFD [0x82#8, 9#8]).byteAt 0xFD) = some .ldi ∧
      Tag.ldi.operandCount = 2 ∧ (at' 0xFD [0x82#8, 9#8]).pc + 1 < 255 ∧ 255 ≤ (at' 0xFD [0x82#8, 9#8]).pc + 2) := by
  decide

theorem witness_FatalAndHaltedAreTerminal :
    (State.reset.setRun .halted).run ≠ .running ∧
    (State.reset.setRun (.fatal .undefinedStoreTarget)).run = .fatal .undefinedStoreTarget ∧
    (after State.reset (fun t => decide (t.err ≠ State.reset.err))) = some true := by decide

/-- The value FF into register 7; the register byte 08; a fetch and both operand fetches outside the memory. -/
theorem witness_LdiLoadsTheImmediate :
    (7#8).toNat < 8 ∧ 8 ≤ (8#8).toNat ∧ State.reset.cfg.legal ∧
    (State.reset.run = .running ∧ (State.reset.setPc 255).cfg.memSize ≤ (State.reset.setPc 255).pc) ∧
    ((at' 0xFE [0x82#8]).run = .running ∧ (at' 0xFE [0x82#8]).byteAt 0xFE = defaultOpcodes.ldi ∧
      (at' 0xFE [0x82#8]).cfg.memSize ≤ (at' 0xFE [0x82#8]).pc + 1) ∧
    ((at' 0xFD [0x82#8]).run = .running ∧ (at' 0xFD [0x82#8]).byteAt 0xFD = defaultOpcodes.ldi ∧
      (at' 0xFD [0x82#8]).cfg.memSize = (at' 0xFD [0x82#8]).pc + 2) := by decide

theorem witness_PrnEmitsTheRegister : (7#8).toNat < 8 := by decide

/-- The ends of the range. -/
theorem witness_MulKeepsTheLowByte : (0#8).toNat < 8 ∧ (7#8).toNat < 8 := by decide

theorem witness_JmpGoesToTheRegister : (7#8).toNat < 8 := by decide

/-- Equal, less and greater, at the ends of the unsigned order. -/
theorem witness_CmpSetsTheFlagsByUnsignedOrder :
    (0#8).toNat < 8 ∧ (1#8).toNat < 8 ∧
    (State.reset.reg 0).toNat = (State.reset.reg 1).toNat ∧
    (State.reset.reg 0).toNat < ((State.reset.setReg 1 0xFF#8).reg 1).toNat ∧
    (State.reset.reg 1).toNat < ((State.reset.setReg 0 0xFF#8).reg 0).toNat := by decide

theorem witness_FlagSetRules :
    (isCmp (.ldi 0#8 1#8) = false ∧ (next? (exec (.ldi 0#8 1#8) State.reset)).isSome = true) ∧
    (isCmp (.jeq 0#8) = false ∧ isConditional (.jeq 0#8) = true ∧
      (⟨.uninit, .one, .zero⟩ : Flags).eq = State.reset.fl.eq) ∧
    (isConditional .hlt = false) ∧
    (State.reset.fl.reachable = true ∧ (next? (step State.reset)).isSome = true) := by decide

theorem witness_AluInterface :
    (match aluApply .mul 0 1 State.reset with
      | .ok _ => true
      | .error _ => false) = true ∧
    (match aluApply .cmp 0 1 State.reset with
      | .ok _ => true
      | .error _ => false) = true ∧
    State.reset.reg 0 = (State.reset.setPc 5).reg 0 ∧ State.reset.reg 1 = (State.reset.setPc 5).reg 1 := by decide

theorem witness_UnsupportedAluOperationIsFatalAndUnreachable :
    (7#8).toNat < 8 ∧ (next? (step State.reset)).isSome = true := by decide

/-- At the top of the memory and at the bottom. -/
theorem witness_PushStoresBelowTheStackTop :
    ((7#8).toNat < 8 ∧ (spDown ((State.reset.setReg 7 0xFF#8).reg SP)).toNat < 255 ∧
      (State.reset.setReg 7 0xFF#8).memWf = true) ∧
    ((spDown ((State.reset.setReg 7 1#8).reg SP)).toNat < 255) ∧ State.reset.cfg.memSize = 255 := by decide

theorem witness_PopLoadsTheStackTop :
    ((7#8).toNat < 8 ∧ (State.reset.setReg 7 0xFE#8).regAddr SP < State.reset.cfg.memSize) ∧
    ((0#8).toNat ≠ 7 ∧ (State.reset.setReg 7 0#8).regAddr SP < State.reset.cfg.memSize) := by decide

theorem witness_StStoresAtTheRegisterAddress :
    (0#8).toNat < 8 ∧ (7#8).toNat < 8 ∧ State.reset.cfg.stPolicy = .store ∧
    (State.reset.setReg 0 0xFE#8).regAddr ⟨(0#8).toNat, by decide⟩ < State.reset.cfg.memSize ∧
    State.reset.memWf = true := by decide

theorem witness_StUnderTheFaultPolicyIsFatal :
    (0#8).toNat < 8 ∧ (withCfg State.reset fun c => { c with stPolicy := .fault }).cfg.stPolicy = .fault := by decide

theorem witness_DataAccessOutOfBoundsIsFatal :
    ((0#8).toNat < 8 ∧ State.reset.cfg.memSize ≤ (spDown ((State.reset.setReg 7 0#8).reg SP)).toNat) ∧
    (State.reset.cfg.memSize ≤ (State.reset.setReg 7 0xFF#8).regAddr SP) ∧
    (State.reset.cfg.stPolicy = .store ∧
      State.reset.cfg.memSize ≤ (State.reset.setReg 1 0xFF#8).regAddr ⟨(1#8).toNat, by decide⟩) := by decide

/-- `PUSH R7` and `POP R7` among the operands. -/
theorem witness_PushThenPopRoundTrip :
    (7#8).toNat < 8 ∧ (0#8).toNat ≠ 7 ∧ State.reset.memWf = true ∧
    (spDown (State.reset.reg SP)).toNat < State.reset.cfg.memSize := by decide

theorem witness_StackSaveAndRestore :
    (∀ r ∈ [0#8, 6#8, 0#8], r.toNat < 7) ∧ State.reset.run = .running ∧ State.reset.memWf = true ∧
    [0#8, 6#8, 0#8].length ≤ (State.reset.reg SP).toNat ∧
    (State.reset.reg SP).toNat ≤ State.reset.cfg.memSize := by decide

/-- `ST R0,R1` (the next opcode is HLT) and `ST R0,R2` (it is unknown). -/
theorem witness_ByteAfterStIsItsSecondOperand :
    ((at' 6 [0x84#8, 0#8, 1#8]).run = .running ∧ State.reset.cfg.stPolicy = .store ∧
      State.reset.cfg.stPcAdvance = 2 ∧
      decode defaultOpcodes (at' 6 [0x84#8, 0#8, 1#8]).window = .ok (.st 0#8 1#8, []) ∧
      (at' 6 [0x84#8, 0#8, 1#8]).regAddr ⟨(0#8).toNat, by decide⟩ < State.reset.cfg.memSize ∧
      (at' 6 [0x84#8, 0#8, 1#8]).regAddr ⟨(0#8).toNat, by decide⟩ ≠ 6 + 2 ∧
      defaultOpcodes.lookup 1#8 = some .hlt) ∧
    (decode defaultOpcodes (at' 6 [0x84#8, 0#8, 2#8]).window = .ok (.st 0#8 2#8, []) ∧
      defaultOpcodes.lookup 2#8 = none) := by decide

theorem witness_StoreIsSeenByTheNextFetch :
    (State.reset.run = .running ∧ State.reset.memWf = true ∧ State.reset.cfg.stPolicy = .store ∧
      (State.reset.setReg 0 2#8).regAddr ⟨(0#8).toNat, by decide⟩ < State.reset.cfg.memSize ∧
      (State.reset.setReg 0 2#8).regAddr ⟨(0#8).toNat, by decide⟩ = 0 + State.reset.cfg.stPcAdvance) ∧
    ((6#8).toNat < 7 ∧ (spDown ((State.reset.setReg 7 3#8).reg SP)).toNat < State.reset.cfg.memSize ∧
      (spDown ((State.reset.setReg 7 3#8).reg SP)).toNat = 0 + 2) := by decide

theorem witness_JeqIsTakenOnEqual :
    (7#8).toNat < 8 ∧ (State.reset.setFl ⟨.one, .zero, .zero⟩).fl.eq = .one ∧
    (State.reset.setFl ⟨.zero, .one, .zero⟩).fl.eq = .zero := by decide

theorem witness_JneIsTakenOnNotEqual :
    (7#8).toNat < 8 ∧ (State.reset.setFl ⟨.one, .zero, .zero⟩).fl.eq ≠ .uninit ∧
    (State.reset.setFl ⟨.zero, .zero, .one⟩).fl.eq ≠ .uninit := by decide

theorem witness_ConditionalJumpOnUninitialisedFlag :
    (7#8).toNat < 8 ∧ State.reset.fl.eq = .uninit ∧ State.reset.cfg.flagUPolicy = .fallthrough ∧
    (withCfg State.reset fun c => { c with flagUPolicy := .fault }).cfg.flagUPolicy = .fault := by decide

theorem witness_OnlyHltHalts :
    after (at' 0xFE [0x01#8]) (fun t => t.run) = some .halted ∧ (at' 0xFE [0x01#8]).run = .running ∧
    (at' 0xFE [0x01#8]).pc < 255 ∧
    (at' 0xFE [0x01#8]).cfg.opcodes.lookup ((at' 0xFE [0x01#8]).byteAt 0xFE) = some .hlt := by decide

theorem witness_SelfJumpRunsForEver :
    (0#8).toNat < 8 ∧ ((at' 3 [0x54#8, 0#8]).setReg 0 3#8).run = .running ∧
    decode defaultOpcodes ((at' 3 [0x54#8, 0#8]).setReg 0 3#8).window = .ok (.jmp 0#8, [0#8]) ∧
    ((at' 3 [0x54#8, 0#8]).setReg 0 3#8).regAddr ⟨(0#8).toNat, by decide⟩ = 3 := by decide

theorem witness_IllegalRegisterIndexIsFatal :
    (Instr.mul 7#8 8#8).wf = false ∧ (Instr.mul 7#8 7#8).wf = true ∧
    (next? (exec (.mul 7#8 7#8) State.reset)).isSome = true ∧ State.reset.run = .running := by decide

theorem witness_FirstIllegalOperandIsReported :
    (Instr.cmp 10#8 11#8).regOperands.find? (fun x => decide (8 ≤ x.toNat)) = some 10#8 ∧
    (Instr.st 7#8 8#8).regOperands.find? (fun x => decide (8 ≤ x.toNat)) = some 8#8 := by decide

theorem witness_RegistersReadAndWritten :
    (next? (exec (.pop 3#8) State.reset)).isSome = true ∧
    (4 : RegIdx).val ∉ regsRead (.pop 3#8) ∧ (4 : RegIdx).val ∉ regsWritten (.pop 3#8) := by decide

theorem witness_MemoryIsWrittenOnlyByPushAndSt :
    (next? (exec (.push 3#8) State.reset)).isSome = true ∧ storesAt (.push 3#8) State.reset ≠ some 0xF4 ∧
    storesAt (.push 3#8) State.reset ≠ some 0xF2 ∧ storesAt (.prn 3#8) State.reset ≠ some 0xF3 := by decide

theorem witness_OutputsOnlyGrow :
    (next? (exec (.prn 7#8) State.reset)).isSome = true ∧ (next? (step State.reset)).isSome = true := by decide

theorem witness_PcAfterEachInstruction :
    (State.reset.run = .running ∧
      (next? (exec (.mul 0#8 1#8) State.reset)).map (fun t => t.run.isFatal) = some false) ∧
    ((next? (step State.reset)).isSome = true ∧ State.reset.pc < 255 ∧
      State.reset.cfg.opcodes.lookup (State.reset.byteAt 0) = none) ∧
    ((next? (step (State.reset.setPc 255))).isSome = true ∧ State.reset.cfg.memSize ≤ (State.reset.setPc 255).pc) := by
  decide

theorem witness_EveryRunningStepHasANextState : State.reset.run = .running := by decide

/-- The invariant at reset, and at a PC of 255 where the fetch is out of bounds. -/
theorem witness_inv_pc_255 : (State.reset.setPc 255).Inv :=
  ⟨by decide, by decide, by decide, by decide, by decide⟩

theorem witness_MemoryPrimitives : (State.reset.setPc 255).Inv ∧
    State.reset.cfg.memSize ≤ 255 ∧ 254 < State.reset.cfg.memSize ∧ State.reset.memWf = true ∧
    (State.reset.setPc 255).cfg.memSize = 255 ∧
    after (State.reset.setPc 255) (fun t => t.run) = some (.fatal (.memoryOutOfBounds .fetch 255)) :=
  ⟨witness_inv_pc_255, by decide⟩

theorem witness_StepKeepsTheInvariant :
    (State.reset.setPc 255).Inv ∧ (next? (step (State.reset.setPc 255))).isSome = true :=
  ⟨witness_inv_pc_255, by decide⟩

theorem witness_LoadedStateMeetsTheInvariant :
    defaultConfig.legal ∧ (List.replicate 255 1#8).length ≤ defaultConfig.memSize :=
  ⟨by decide, Nat.le_of_eq (List.length_replicate ..)⟩

theorem witness_LoadedImageStandsFromZero :
    [0x82#8, 0#8, 5#8].length ≤ defaultConfig.memSize ∧ 2 < [0x82#8, 0#8, 5#8].length := by decide

theorem witness_ParametersNeverChange : (next? (step State.reset)).isSome = true := by decide

/-- Two states that differ in all that nothing reads. -/
theorem witness_UnreadStateHasNoInfluence :
    agreeOnReadable State.reset
      (((State.reset.setIr 9#8).setFl ⟨.uninit, .one, .zero⟩).emitOut 1#8 |>.emitErr ⟨0, 0#8⟩) ∧
    (next? (step State.reset)).isSome = true :=
  ⟨⟨rfl, rfl, rfl, rfl, rfl, rfl⟩, by decide⟩

theorem witness_FatalStepLeavesTheStateButForPush :
    after ((at' 0 [0x45#8, 0#8]).setReg 7 0#8) (fun t => t.run) = some (.fatal (.memoryOutOfBounds .write 255)) ∧
    after (at' 0 [0x47#8, 9#8]) (fun t => t.run) = some (.fatal (.registerIndexOutOfRange 9#8)) := by decide

/-- Reset with the PC at the last cells, all of them 0x00. -/
theorem witness_UnknownBytesRunToTheEndOfMemory :
    (State.reset.setPc 253).run = .running ∧ (State.reset.setPc 253).pc ≤ (State.reset.setPc 253).cfg.memSize ∧
    (∀ a, (State.reset.setPc 253).pc ≤ a → a < (State.reset.setPc 253).cfg.memSize →
      (State.reset.setPc 253).cfg.opcodes.lookup ((State.reset.setPc 253).byteAt a) = none) :=
  ⟨by decide, by decide, fun _ _ _ => by
    show defaultOpcodes.lookup 0x00#8 = none
    decide⟩

theorem witness_RunsHaveThreeShapes : State.reset.run = .running := by decide

end Sys2Proof.Tests
end

/-! ## The flags

How `FL` enters and leaves an instruction (10_state.md R27): a write of the flags passes unseen through every operation
that does not read them, every meaning but CMP's leaves them alone, and CMP's leaves a one-hot result. -/

namespace Sys2Proof.Machine

/-! ### A flag write passes through the shared operations -/

@[simp] theorem State.setFl_setReg (s : State) (f : Flags) (i : RegIdx) (v : Byte) :
    (s.setFl f).setReg i v = (s.setReg i v).setFl f := rfl

/-- A store neither reads nor writes a flag. -/
theorem State.setFl_memWrite (s : State) (f : Flags) (a : Nat) (v : Byte) :
    (s.setFl f).memWrite a v = (s.memWrite a v).map fun t => t.setFl f := by
  rcases s.memWrite_cases a v with ⟨h, e⟩ | ⟨h, e⟩ <;> rw [e]
  · exact if_pos h
  · exact if_neg (Nat.not_lt.mpr h)

theorem State.memWrite_fl {s t : State} {a : Nat} {v : Byte} (h : s.memWrite a v = .ok t) : t.fl = s.fl := by
  obtain ⟨-, ht, -⟩ := State.memWrite_spec h
  rw [ht]

/-! ### CMP -/

/-- The result of a compare is one-hot (R27, R112). -/
theorem compareFlags_oneHot (x y : Byte) : (compareFlags x y).oneHot = true := by
  rcases compareFlags_cases x y with ⟨-, e⟩ | ⟨-, e⟩ | ⟨-, e⟩ <;> rw [e] <;> rfl

theorem Flags.reachable_of_oneHot {f : Flags} (h : f.oneHot = true) : f.reachable = true := by
  simp [Flags.reachable, h]

/-- CMP of two registers writes the flags and adds 3 to the PC. -/
theorem execCmp_of_lt {a b : Byte} (s : State) (ha : a.toNat < 8) (hb : b.toNat < 8) :
    execCmp a b s =
      .next ((s.setFl (compareFlags (s.reg ⟨a.toNat, ha⟩) (s.reg ⟨b.toNat, hb⟩))).advance 3) := by
  simp only [execCmp, aluInstr, regPair, regIdx_ok ha, regIdx_ok hb, aluApply]

/-- CMP on any operand bytes: an illegal index leaves the flags alone, a compare leaves them one-hot. -/
theorem execCmp_fl {a b : Byte} {s t : State} (h : execCmp a b s = .next t) :
    t.fl = s.fl ∨ t.fl.oneHot = true := by
  rcases aluInstr_next h with ⟨-, rfl⟩ | ⟨-, -, rfl⟩ | ⟨_, ⟨⟩, -⟩ | ⟨_, _, u, hu, rfl⟩
  · exact .inl rfl
  · exact .inl rfl
  · cases hu
    exact .inr (compareFlags_oneHot _ _)

/-! ### Every other instruction -/

theorem branchInstr_fl {want : FlagVal} {r : Byte} {s t : State} (h : branchInstr want r s = .next t) :
    t.fl = s.fl := by
  rcases branchInstr_next h with ⟨-, rfl⟩ | ⟨_, -, rfl⟩ | ⟨-, -, rfl⟩ | ⟨-, -, rfl⟩ <;> rfl

/-- No instruction but CMP writes a flag (R27). -/
theorem exec_fl_of_not_isCmp {i : Instr} {s t : State} (h : exec i s = .next t) (hi : isCmp i = false) :
    t.fl = s.fl := by
  cases i with
  | ldi r v => rcases execLdi_next h with ⟨-, rfl⟩ | ⟨_, rfl⟩ <;> rfl
  | prn r => rcases execPrn_next h with ⟨-, rfl⟩ | ⟨_, rfl⟩ <;> rfl
  | mul a b =>
    rcases aluInstr_next (op := .mul) h with ⟨-, rfl⟩ | ⟨-, -, rfl⟩ | ⟨_, ⟨⟩, -⟩ | ⟨_, _, u, hu, rfl⟩
    · rfl
    · rfl
    · cases hu
      rfl
  | cmp a b => cases hi
  | push r =>
    rcases execPush_next h with ⟨-, rfl⟩ | ⟨-, -, rfl⟩ | ⟨_, u, hu, rfl⟩
    · rfl
    · rfl
    · rw [State.advance_fl, State.memWrite_fl hu, State.setReg_fl]
  | pop r => rcases execPop_next h with ⟨-, rfl⟩ | ⟨-, -, rfl⟩ | ⟨_, -, rfl⟩ <;> rfl
  | st a b =>
    rcases execSt_next h with
      ⟨-, rfl⟩ | ⟨-, -, rfl⟩ | ⟨-, -, -, rfl⟩ | ⟨_, -, -, -, rfl⟩ | ⟨_, _, u, -, hu, rfl⟩
    · rfl
    · rfl
    · rfl
    · rfl
    · rw [State.advance_fl, State.memWrite_fl hu]
  | jmp r => rcases execJmp_next h with ⟨-, rfl⟩ | ⟨_, rfl⟩ <;> rfl
  | jeq r => exact branchInstr_fl h
  | jne r => exact branchInstr_fl h
  | hlt => rw [execHlt_next h, State.setRun_fl]

/-- A conditional jump reads no flag but `FL.eq` (R27). -/
theorem branchInstr_setFl (want : FlagVal) (r : Byte) {s : State} {f : Flags} (hf : f.eq = s.fl.eq) :
    branchInstr want r (s.setFl f) = onNext (fun t => t.setFl f) (branchInstr want r s) := by
  rcases regIdx_cases r with ⟨_, e⟩ | ⟨_, e⟩
  · simp only [branchInstr, e, State.setFl_cfg, State.setFl_fl, hf]
    cases branchTest s.cfg.flagUPolicy s.fl.eq want <;> rfl
  · simp only [branchInstr, e]
    rfl

/-- An instruction other than CMP commutes with a write of the flags, provided that a conditional jump finds the same
`FL.eq`: nothing else of the flags is read (R27). -/
theorem exec_setFl {i : Instr} {s : State} {f : Flags} (hi : isCmp i = false)
    (hf : isConditional i = true → f.eq = s.fl.eq) :
    exec i (s.setFl f) = onNext (fun t => t.setFl f) (exec i s) := by
  cases i with
  | ldi r _ | prn r | jmp r =>
    rcases regIdx_cases r with ⟨_, e⟩ | ⟨_, e⟩ <;> simp only [exec, execLdi, execPrn, execJmp, e] <;> rfl
  | mul a b =>
    rcases regPair_cases a b with ⟨_, _, e⟩ | ⟨_, e⟩ | ⟨_, _, e⟩ <;> simp only [exec, execMul, aluInstr, e] <;> rfl
  | cmp a b => cases hi
  | push r =>
    rcases regIdx_cases r with ⟨_, e⟩ | ⟨_, e⟩ <;> simp only [exec, execPush, e]
    · simp only [State.setFl_setReg, State.setFl_memWrite, State.setFl_reg, State.setFl_regAddr]
      cases (s.setReg SP (spDown (s.reg SP))).memWrite _ _ <;> rfl
    · rfl
  | pop r =>
    rcases regIdx_cases r with ⟨_, e⟩ | ⟨_, e⟩ <;> simp only [exec, execPop, e]
    · simp only [State.setFl_memRead, State.setFl_regAddr]
      cases s.memRead .read (s.regAddr SP) <;> rfl
    · rfl
  | st a b =>
    rcases regPair_cases a b with ⟨_, _, e⟩ | ⟨_, e⟩ | ⟨_, _, e⟩ <;> simp only [exec, execSt, e]
    · cases hp : s.cfg.stPolicy <;> simp only [State.setFl_cfg, hp]
      · simp only [State.setFl_memWrite, State.setFl_reg, State.setFl_regAddr]
        cases s.memWrite _ _ <;> rfl
      · rfl
    · rfl
    · rfl
  | jeq r => exact branchInstr_setFl .one r (hf rfl)
  | jne r => exact branchInstr_setFl .zero r (hf rfl)
  | hlt => rfl

/-! ### The four reachable flag states -/

theorem exec_keeps_reachable {i : Instr} {s t : State} (hs : s.fl.reachable = true) (h : exec i s = .next t) :
    t.fl.reachable = true := by
  have hfl : t.fl = s.fl ∨ t.fl.oneHot = true := by
    cases i with
    | cmp a b => exact execCmp_fl h
    | _ => exact .inl (exec_fl_of_not_isCmp h rfl)
  rcases hfl with e | e
  · rw [e]
    exact hs
  · exact Flags.reachable_of_oneHot e

/-- Every step keeps the flags in one of their four reachable states (R27). -/
theorem step_keeps_reachable {s t : State} (hs : s.fl.reachable = true) (h : step s = .next t) :
    t.fl.reachable = true := by
  obtain ⟨-, hc⟩ := step_next h
  rcases cycle_cases s with ⟨-, e⟩ | ⟨-, -, e⟩ | ⟨_, _, -, -, -, e⟩ | ⟨_, _, _, -, -, -, e⟩ <;> rw [e] at hc
  · rw [raise_next hc]
    exact hs
  · cases hc
    exact hs
  · rw [raise_next hc]
    exact hs
  · exact exec_keeps_reachable (s := s.setIr (s.byteAt s.pc)) hs hc

/-- Settles O16: the frame of `FL`, the commutation with a flag write, the one-hot compare and the reachable states, one
lemma each. -/
theorem flagSetRules : Obligations.FlagSetRules := by
  refine ⟨fun _ _ _ => exec_fl_of_not_isCmp, fun a b s ha hb => ?_, fun _ _ _ => exec_setFl,
    fun a b s f ha hb => ?_, fun _ _ => step_keeps_reachable, fun _ => rfl⟩
  · exact ⟨_, execCmp_of_lt s ha hb, compareFlags_oneHot _ _⟩
  · calc exec (.cmp a b) (s.setFl f)
        = .next (((s.setFl f).setFl (compareFlags (s.reg ⟨a.toNat, ha⟩) (s.reg ⟨b.toNat, hb⟩))).advance 3) :=
          execCmp_of_lt (s.setFl f) ha hb
      _ = exec (.cmp a b) s := (execCmp_of_lt s ha hb).symm

end Sys2Proof.Machine

/-! ## The load phase

What the memory reads after a block of bytes is placed in it (20_memory.md R41), and with that the core's contract with
the loader (30_encoding.md R71). -/

namespace Sys2Proof.Machine.Memory

/-- The first byte of a block that starts inside the memory is written, then the rest from the next address on. -/
theorem writeBytes_cons_of_lt {size a : Nat} (ha : a < size) (fill : Byte) (m : Memory) (v : Byte) (vs : List Byte) :
    writeBytes fill size m a (v :: vs) = writeBytes fill size (write fill m a v) (a + 1) vs := by
  rw [writeBytes, if_pos ha]

/-- Placing a block that fits leaves every address past its end alone. -/
theorem read_writeBytes_above {fill : Byte} {size : Nat} (m : Memory) {a x : Nat} {vs : List Byte}
    (hfit : a + vs.length ≤ size) (hx : a + vs.length ≤ x) :
    read fill (writeBytes fill size m a vs) x = read fill m x := by
  induction vs generalizing m a with
  | nil => rfl
  | cons v vs ih =>
    rw [List.length_cons] at hfit hx
    rw [writeBytes_cons_of_lt (by omega), ih _ (by omega) (by omega)]
    exact read_write_other m (by omega) v

/-- Placing a block that fits puts its `i`-th byte `i` addresses after its start. The first byte stays because the later
ones are written above it. -/
theorem read_writeBytes_getElem {fill : Byte} {size : Nat} {m : Memory} (hm : wf fill m = true) {a : Nat}
    {vs : List Byte} (hfit : a + vs.length ≤ size) {i : Nat} (hi : i < vs.length) :
    read fill (writeBytes fill size m a vs) (a + i) = vs[i] := by
  induction vs generalizing m a i with
  | nil => cases hi
  | cons v vs ih =>
    rw [List.length_cons] at hfit hi
    rw [writeBytes_cons_of_lt (by omega)]
    cases i with
    | zero =>
      rw [Nat.add_zero a, read_writeBytes_below _ (Nat.lt_add_one a)]
      exact read_write_same hm a v
    | succ i =>
      have hshift : a + (i + 1) = a + 1 + i := by omega
      rw [hshift]
      exact ih (write_wf hm a v) (by omega) (by omega)

end Sys2Proof.Machine.Memory

namespace Sys2Proof.Machine

/-- An image that fits is loaded, and the load changes the memory alone. -/
theorem State.load_of_length_le {image : List Byte} {s : State} (h : image.length ≤ s.cfg.memSize) :
    s.load image = .next { s with mem := Memory.writeBytes s.unlisted s.cfg.memSize s.mem 0 image } :=
  if_pos h

/-- Settles O48: construction lists no cell, so every cell the image does not reach still reads as `MEM_FILL`. -/
theorem loadedImageStandsFromZero : Obligations.LoadedImageStandsFromZero := by
  intro c image hlen
  have hfit : 0 + image.length ≤ c.memSize := by rwa [Nat.zero_add]
  refine ⟨_, State.load_of_length_le hlen, fun i hi => ?_, fun i hi => ?_⟩
  · have hread := Memory.read_writeBytes_getElem (fill := c.memFill) (m := []) rfl hfit hi
    rwa [Nat.zero_add] at hread
  · exact Memory.read_writeBytes_above [] hfit (by rwa [Nat.zero_add])

end Sys2Proof.Machine

/-! ## The execution cycle

Every running machine has a next state (40_execution_cycle.md R88), what the fetch stage leaves in it (R81), and the
step over an unknown opcode (R83). -/

namespace Sys2Proof.Machine

/-! ### Every instruction and every running machine has a next state -/

theorem aluInstr_total (op : AluOp) (a b : Byte) (s : State) : ∃ t, aluInstr op a b s = .next t := by
  rcases regPair_cases a b with ⟨ha, hb, e⟩ | ⟨_, e⟩ | ⟨_, _, e⟩ <;> simp only [aluInstr, e]
  · rcases aluApply_cases op ⟨a.toNat, ha⟩ ⟨b.toNat, hb⟩ s with ⟨_, u⟩ | u | ⟨_, -, u⟩ <;> rw [u] <;> exact ⟨_, rfl⟩
  · exact ⟨_, rfl⟩
  · exact ⟨_, rfl⟩

theorem branchInstr_total (want : FlagVal) (r : Byte) (s : State) : ∃ t, branchInstr want r s = .next t := by
  rcases branchInstr_cases want r s with ⟨_, e⟩ | ⟨_, e⟩ | e | ⟨_, e⟩ <;> exact ⟨_, e⟩

/-- An instruction always answers a next state: a fatal condition is one too (R171), and no arm refuses. -/
theorem exec_total (i : Instr) (s : State) : ∃ t, exec i s = .next t := by
  cases i with
  | ldi r _ | prn r | jmp r =>
    rcases regIdx_cases r with ⟨_, e⟩ | ⟨_, e⟩ <;> simp only [exec, execLdi, execPrn, execJmp, e] <;> exact ⟨_, rfl⟩
  | mul a b => exact aluInstr_total .mul a b s
  | cmp a b => exact aluInstr_total .cmp a b s
  | push r =>
    rcases regIdx_cases r with ⟨_, e⟩ | ⟨_, e⟩ <;> simp only [exec, execPush, e]
    · cases (s.setReg SP (spDown (s.reg SP))).memWrite _ _ <;> exact ⟨_, rfl⟩
    · exact ⟨_, rfl⟩
  | pop r =>
    rcases regIdx_cases r with ⟨_, e⟩ | ⟨_, e⟩ <;> simp only [exec, execPop, e]
    · cases s.memRead .read (s.regAddr SP) <;> exact ⟨_, rfl⟩
    · exact ⟨_, rfl⟩
  | st a b =>
    rcases regPair_cases a b with ⟨_, _, e⟩ | ⟨_, e⟩ | ⟨_, _, e⟩ <;> simp only [exec, execSt, e]
    · cases s.cfg.stPolicy
      · cases s.memWrite _ _ <;> exact ⟨_, rfl⟩
      · exact ⟨_, rfl⟩
    · exact ⟨_, rfl⟩
    · exact ⟨_, rfl⟩
  | jeq r => exact branchInstr_total .one r s
  | jne r => exact branchInstr_total .zero r s
  | hlt => exact ⟨_, rfl⟩

/-- A running machine always has a next state (R88). -/
theorem step_total {s : State} (h : s.run = .running) : ∃ t, step s = .next t := by
  rw [step_running h]
  rcases cycle_cases s with ⟨-, e⟩ | ⟨-, -, e⟩ | ⟨_, _, -, -, -, e⟩ | ⟨_, _, _, -, -, -, e⟩ <;> rw [e]
  · exact ⟨_, rfl⟩
  · exact ⟨_, rfl⟩
  · exact ⟨_, rfl⟩
  · exact exec_total _ _

/-! ### No instruction redoes the fetch -/

/-- `t` holds the `IR` of `s`, and its `RUN` is that of a fetch out of bounds only where the `RUN` of `s` is already:
what happens between the fetch stage and the end of a step. -/
structure keepsFetch (s t : State) : Prop where
  ir : t.ir = s.ir
  run : ∀ a, t.run = .fatal (.memoryOutOfBounds .fetch a) → s.run = .fatal (.memoryOutOfBounds .fetch a)

theorem State.memWrite_ir {s t : State} {a : Nat} {v : Byte} (h : s.memWrite a v = .ok t) : t.ir = s.ir := by
  obtain ⟨-, ht, -⟩ := State.memWrite_spec h
  rw [ht]

theorem State.memWrite_run {s t : State} {a : Nat} {v : Byte} (h : s.memWrite a v = .ok t) : t.run = s.run := by
  obtain ⟨-, ht, -⟩ := State.memWrite_spec h
  rw [ht]

/-- An operation that writes neither `IR` nor `RUN` keeps what the fetch left. -/
theorem keepsFetch_of_eq {s t : State} (hir : t.ir = s.ir) (hrun : t.run = s.run) : keepsFetch s t :=
  ⟨hir, fun _ h => hrun ▸ h⟩

theorem aluInstr_keepsFetch {op : AluOp} {a b : Byte} {s t : State} (h : aluInstr op a b s = .next t) :
    keepsFetch s t := by
  rcases aluInstr_next h with ⟨-, rfl⟩ | ⟨-, -, rfl⟩ | ⟨_, -, rfl⟩ | ⟨ha, hb, u, hu, rfl⟩
  · exact ⟨rfl, nofun⟩
  · exact ⟨rfl, nofun⟩
  · exact ⟨rfl, nofun⟩
  · rcases aluApply_cases op ⟨a.toNat, ha⟩ ⟨b.toNat, hb⟩ s with ⟨_, e⟩ | e | ⟨_, -, e⟩ <;> cases e.symm.trans hu
    · exact keepsFetch_of_eq rfl rfl
    · exact keepsFetch_of_eq rfl rfl

theorem branchInstr_keepsFetch {want : FlagVal} {r : Byte} {s t : State} (h : branchInstr want r s = .next t) :
    keepsFetch s t := by
  rcases branchInstr_next h with ⟨-, rfl⟩ | ⟨_, -, rfl⟩ | ⟨-, -, rfl⟩ | ⟨-, -, rfl⟩
  · exact ⟨rfl, nofun⟩
  · exact keepsFetch_of_eq rfl rfl
  · exact keepsFetch_of_eq rfl rfl
  · exact ⟨rfl, nofun⟩

/-- No instruction writes `IR` (R25) or raises a fetch out of bounds (R42). -/
theorem exec_keepsFetch {i : Instr} {s t : State} (h : exec i s = .next t) : keepsFetch s t := by
  cases i with
  | ldi r v =>
    rcases execLdi_next h with ⟨-, rfl⟩ | ⟨_, rfl⟩
    · exact ⟨rfl, nofun⟩
    · exact keepsFetch_of_eq rfl rfl
  | prn r =>
    rcases execPrn_next h with ⟨-, rfl⟩ | ⟨_, rfl⟩
    · exact ⟨rfl, nofun⟩
    · exact keepsFetch_of_eq rfl rfl
  | mul a b => exact aluInstr_keepsFetch (op := .mul) h
  | cmp a b => exact aluInstr_keepsFetch (op := .cmp) h
  | push r =>
    rcases execPush_next h with ⟨-, rfl⟩ | ⟨-, -, rfl⟩ | ⟨_, u, hu, rfl⟩
    · exact ⟨rfl, nofun⟩
    · exact ⟨rfl, nofun⟩
    · exact keepsFetch_of_eq (State.memWrite_ir hu :) (State.memWrite_run hu :)
  | pop r =>
    rcases execPop_next h with ⟨-, rfl⟩ | ⟨-, -, rfl⟩ | ⟨_, -, rfl⟩
    · exact ⟨rfl, nofun⟩
    · exact ⟨rfl, nofun⟩
    · exact keepsFetch_of_eq rfl rfl
  | st a b =>
    rcases execSt_next h with
      ⟨-, rfl⟩ | ⟨-, -, rfl⟩ | ⟨-, -, -, rfl⟩ | ⟨_, -, -, -, rfl⟩ | ⟨_, _, u, -, hu, rfl⟩
    · exact ⟨rfl, nofun⟩
    · exact ⟨rfl, nofun⟩
    · exact ⟨rfl, nofun⟩
    · exact ⟨rfl, nofun⟩
    · exact keepsFetch_of_eq (State.memWrite_ir hu :) (State.memWrite_run hu :)
  | jmp r =>
    rcases execJmp_next h with ⟨-, rfl⟩ | ⟨_, rfl⟩
    · exact ⟨rfl, nofun⟩
    · exact keepsFetch_of_eq rfl rfl
  | jeq r => exact branchInstr_keepsFetch h
  | jne r => exact branchInstr_keepsFetch h
  | hlt =>
    rw [execHlt_next h]
    exact ⟨rfl, nofun⟩

/-- The operand fetch raises no other fatal kind than its own (R84). -/
theorem fetchOperands_error {tag : Tag} {s : State} {k : FatalKind} (h : fetchOperands tag s = .error k) :
    ∃ a, k = .memoryOutOfBounds .operand a := by
  rcases fetchOperands_cases tag s with
    ⟨-, e⟩ | ⟨-, -, e⟩ | ⟨-, -, e⟩ | ⟨-, -, e⟩ | ⟨-, -, -, e⟩ <;> cases e.symm.trans h
  · exact ⟨_, rfl⟩
  · exact ⟨_, rfl⟩

/-- In bounds, everything after the fetch keeps what the fetch left: the byte at the PC in `IR` and a machine that is not
fatal for its fetch. -/
theorem cycle_keepsFetch {s t : State} (hpc : s.pc < s.cfg.memSize) (h : cycle s = .next t) :
    keepsFetch (s.setIr (s.byteAt s.pc)) t := by
  rcases cycle_cases s with ⟨hout, -⟩ | ⟨-, -, e⟩ | ⟨_, k, -, -, hk, e⟩ | ⟨_, _, _, -, -, -, e⟩
  · exact absurd hpc (Nat.not_lt.mpr hout)
  · cases e.symm.trans h
    exact keepsFetch_of_eq rfl rfl
  · obtain ⟨_, rfl⟩ := fetchOperands_error hk
    rw [raise_next (e.symm.trans h)]
    exact ⟨rfl, nofun⟩
  · exact exec_keepsFetch (e.symm.trans h)

/-! ### The fetch stage and the unknown opcode -/

/-- A fetch out of bounds ends the step before `IR` is written (R81). -/
theorem step_fetch_outOfBounds {s : State} (hrun : s.run = .running) (hpc : s.cfg.memSize ≤ s.pc) :
    step s = .next (s.setRun (.fatal (.memoryOutOfBounds .fetch s.pc))) := by
  rw [step_running hrun, cycle, State.memRead_error hpc]
  rfl

/-- The step at a byte outside the table: `IR` written, one report, `PC + 1` (R83, R176). -/
theorem step_unknownOpcode {s : State} (hrun : s.run = .running) (hpc : s.pc < s.cfg.memSize)
    (hop : s.cfg.opcodes.lookup (s.byteAt s.pc) = none) :
    step s = .next (((s.setIr (s.byteAt s.pc)).emitErr ⟨s.pc, s.byteAt s.pc⟩).advance 1) := by
  rw [step_running hrun]
  simp only [cycle, State.memRead_ok hpc, State.setIr_cfg, hop]
  rfl

/-- Settles O7: out of bounds the cycle raises at once; in bounds there is a next state, and nothing after the fetch
touches what the fetch left. -/
theorem fetchStage : Obligations.FetchStage := by
  intro s hrun
  refine ⟨step_fetch_outOfBounds hrun, fun hpc => ?_⟩
  obtain ⟨t, ht⟩ := step_total hrun
  obtain ⟨hir, hfetch⟩ := cycle_keepsFetch hpc (step_next ht).2
  refine ⟨t, ht, hir, fun a hfatal => ?_⟩
  cases hrun.symm.trans (hfetch a hfatal)

/-- Settles O8: the next state of `step_unknownOpcode`, field by field. -/
theorem unknownOpcodeIsSteppedOver : Obligations.UnknownOpcodeIsSteppedOver := by
  intro s hrun hpc hop
  exact ⟨_, _, step_unknownOpcode hrun hpc hop, rfl, rfl, rfl, rfl, fun _ => rfl, rfl, hrun, rfl⟩

end Sys2Proof.Machine

/-! ## Runs

How runs compose, that a run ends where the machine stops, and the three shapes of a run (40_execution_cycle.md R90). -/

namespace Sys2Proof.Machine

/-- No step leaves the state where it is. -/
theorem runsTo_zero {s t : State} : runsTo 0 s t ↔ s = t :=
  ⟨fun h => by cases h; rfl, fun h => by cases h; rfl⟩

/-- A run of `n + 1` steps of any machine behind the host's interface is one step and a run of `n` from there. -/
theorem coreRun_succ {M : Host.Core} {n : Nat} {s t : M.State} :
    M.run (n + 1) s = .next t ↔ ∃ u, M.step s = .next u ∧ M.run n u = .next t := by
  rw [Host.Core.run]
  cases M.step s <;> simp

/-- A run of `n + 1` steps is one step and a run of `n` from there. -/
theorem runsTo_succ {n : Nat} {s t : State} : runsTo (n + 1) s t ↔ ∃ u, step s = .next u ∧ runsTo n u t :=
  coreRun_succ (M := Sys2Proof.core)

/-- A run of `m + n` steps is a run of `m` and a run of `n` from there. -/
theorem runsTo_add {m n : Nat} {s t : State} : runsTo (m + n) s t ↔ ∃ u, runsTo m s u ∧ runsTo n u t := by
  induction m generalizing s with
  | zero => simp [runsTo_zero]
  | succ m ih =>
    rw [Nat.succ_add_eq_add_succ, Nat.add_succ]
    simp only [runsTo_succ, ih]
    constructor
    · rintro ⟨v, hv, u, hu, ht⟩
      exact ⟨u, ⟨v, hv, hu⟩, ht⟩
    · rintro ⟨u, ⟨v, hv, hu⟩, ht⟩
      exact ⟨v, hv, u, hu, ht⟩

theorem runsTo_step {n : Nat} {s t u : State} (h : runsTo n s t) (hu : step t = .next u) : runsTo (n + 1) s u :=
  runsTo_add.mpr ⟨t, h, runsTo_succ.mpr ⟨u, hu, runsTo_zero.mpr rfl⟩⟩

/-- The machine is deterministic: after `n` steps there is one state. -/
theorem runsTo_unique {n : Nat} {s t u : State} (ht : runsTo n s t) (hu : runsTo n s u) : t = u := by
  cases ht.symm.trans hu
  rfl

/-- A run that has reached a machine that is not running is not continued (R28). -/
theorem runsTo_le_of_stopped {m n : Nat} {s t u : State} (ht : runsTo n s t) (hstop : t.run ≠ .running)
    (hu : runsTo m s u) : m ≤ n := by
  by_contra hlt
  obtain ⟨k, rfl⟩ : ∃ k, m = n + (k + 1) := ⟨m - n - 1, by omega⟩
  obtain ⟨t', ht', hrest⟩ := runsTo_add.mp hu
  obtain ⟨v, hv, -⟩ := runsTo_succ.mp hrest
  cases runsTo_unique ht ht'
  exact hstop (step_next hv).1

/-- The state in which a run stops is the only one. -/
theorem stopped_unique {m n : Nat} {s t u : State} (ht : runsTo n s t) (htstop : t.run ≠ .running)
    (hu : runsTo m s u) (hustop : u.run ≠ .running) : t = u := by
  have hmn : m = n := Nat.le_antisymm (runsTo_le_of_stopped ht htstop hu) (runsTo_le_of_stopped hu hustop ht)
  subst hmn
  exact runsTo_unique ht hu

/-- An infinite run reaches no machine that is not running. -/
theorem not_runsForever_of_stopped {n : Nat} {s t : State} (ht : runsTo n s t) (hstop : t.run ≠ .running) :
    ¬ runsForever s := by
  intro hforever
  obtain ⟨u, hu, hrun⟩ := hforever n
  cases runsTo_unique ht hu
  exact hstop hrun

/-- A run that never stops goes on for ever: by `step_total` each of its states, being running, has a next one. -/
theorem runsForever_of_never_stopped {s : State} (h : ∀ n t, runsTo n s t → t.run = .running) : runsForever s := by
  intro n
  suffices hn : ∃ t, runsTo n s t from hn.imp fun t ht => ⟨ht, h n t ht⟩
  induction n with
  | zero => exact ⟨s, runsTo_zero.mpr rfl⟩
  | succ n ih =>
    obtain ⟨t, ht⟩ := ih
    obtain ⟨u, hu⟩ := step_total (h n t ht)
    exact ⟨u, runsTo_step ht hu⟩

/-- A run halts, stops fatally or goes on for ever. -/
theorem halts_or_stopsFatally_or_runsForever (s : State) : halts s ∨ stopsFatally s ∨ runsForever s := by
  by_cases h : ∀ n t, runsTo n s t → t.run = .running
  · exact .inr (.inr (runsForever_of_never_stopped h))
  · push Not at h
    obtain ⟨n, t, ht, hstop⟩ := h
    rcases hr : t.run with _ | _ | k
    · exact absurd hr hstop
    · exact .inl ⟨n, t, ht, hr⟩
    · exact .inr (.inl ⟨n, t, k, ht, hr⟩)

/-- Settles O53: a run that stops has one last state, whose `RUN` is either `halted` or fatal; one that never stops is
infinite because a running machine always has a next state. -/
theorem runsHaveThreeShapes : Obligations.RunsHaveThreeShapes := by
  intro s _
  refine ⟨halts_or_stopsFatally_or_runsForever s, ?_, ?_, ?_⟩
  · rintro ⟨⟨n, t, ht, hhalt⟩, m, u, k, hu, hfatal⟩
    cases stopped_unique ht (by simp [hhalt]) hu (by simp [hfatal])
    cases hhalt.symm.trans hfatal
  · rintro ⟨⟨n, t, ht, hhalt⟩, hforever⟩
    exact not_runsForever_of_stopped ht (by simp [hhalt]) hforever
  · rintro ⟨⟨n, t, k, ht, hfatal⟩, hforever⟩
    exact not_runsForever_of_stopped ht (by simp [hfatal]) hforever

end Sys2Proof.Machine

/-! ## Load immediate

An operand fetch out of bounds ends the step (40_execution_cycle.md R84), what LDI does with its register byte, and with
both LDI's rule (41_ldi_prn.md R100). -/

namespace Sys2Proof

/-- LDI's opcode byte comes first in the lookup, so it is found in every table. -/
theorem OpcodeTable.lookup_ldi (t : OpcodeTable) : t.lookup t.ldi = some .ldi := if_pos rfl

/-- Under legal parameters LDI starts with the opcode byte the source states (R6, R64). -/
theorem encode_ldi_of_legal {c : Config} (h : c.legal) (r v : Byte) :
    encode c.opcodes (.ldi r v) = [0x82#8, r, v] := by
  obtain ⟨-, -, -, -, hldi⟩ := h
  rw [← hldi]
  rfl

end Sys2Proof

namespace Sys2Proof.Machine

/-! ### The operand fetch out of bounds -/

/-- The first operand byte is past the end of memory (R84). -/
theorem fetchOperands_error_op1 {tag : Tag} {s : State} (hcount : 1 ≤ tag.operandCount)
    (hout : s.cfg.memSize ≤ s.pc + 1) :
    fetchOperands tag s = .error (.memoryOutOfBounds .operand (s.pc + 1)) := by
  rcases fetchOperands_cases tag s with
    ⟨h0, -⟩ | ⟨-, hin, -⟩ | ⟨-, hin, -⟩ | ⟨-, -, e⟩ | ⟨-, hin, -, -⟩
  on_goal 4 => exact e
  all_goals omega

/-- The first operand byte exists and the second is past the end of memory (R84). -/
theorem fetchOperands_error_op2 {tag : Tag} {s : State} (hcount : tag.operandCount = 2)
    (hin : s.pc + 1 < s.cfg.memSize) (hout : s.cfg.memSize ≤ s.pc + 2) :
    fetchOperands tag s = .error (.memoryOutOfBounds .operand (s.pc + 2)) := by
  rcases fetchOperands_cases tag s with
    ⟨h0, -⟩ | ⟨h1, -, -⟩ | ⟨-, hin2, -⟩ | ⟨-, hout1, -⟩ | ⟨-, -, -, e⟩
  on_goal 5 => exact e
  all_goals omega

/-- A failed operand fetch ends the step after `IR` is written, and before the instruction has any effect (R80, R84). -/
theorem step_fetchOperands_error {s : State} {tag : Tag} {k : FatalKind} (hrun : s.run = .running)
    (hpc : s.pc < s.cfg.memSize) (hop : s.cfg.opcodes.lookup (s.byteAt s.pc) = some tag)
    (hfetch : fetchOperands tag (s.setIr (s.byteAt s.pc)) = .error k) :
    step s = .next ((s.setIr (s.byteAt s.pc)).setRun (.fatal k)) := by
  rw [step_running hrun]
  simp only [cycle, State.memRead_ok hpc, State.setIr_cfg, hop, hfetch]
  rfl

/-! ### LDI -/

/-- A register write leaves every other register as it was (R20). -/
theorem State.setReg_sameRegsBut (s : State) (i : RegIdx) (v : Byte) : sameRegsBut [i.val] s (s.setReg i v) := by
  intro j hj
  have hne : i ≠ j := fun e => hj (e ▸ List.mem_singleton_self _)
  exact State.setReg_reg_other s hne v

/-- LDI into one of the eight registers writes it and adds 3 to the PC. -/
theorem exec_ldi_of_lt {r : Byte} (s : State) (hr : r.toNat < 8) (v : Byte) :
    exec (.ldi r v) s = .next ((s.setReg ⟨r.toNat, hr⟩ v).advance 3) := by
  simp only [exec, execLdi, regIdx_ok hr]

/-- LDI with a byte that names no register is fatal with that byte (R173). -/
theorem exec_ldi_of_ge {r : Byte} (s : State) (hr : 8 ≤ r.toNat) (v : Byte) :
    exec (.ldi r v) s = .next (s.setRun (.fatal (.registerIndexOutOfRange r))) := by
  simp only [exec, execLdi, regIdx_error hr]
  rfl

/-- Settles O12: the next state of `exec_ldi_of_lt`, field by field, and one lemma for each way LDI stops. -/
theorem ldiLoadsTheImmediate : Obligations.LdiLoadsTheImmediate := by
  intro s r v
  refine ⟨fun hr => ?result, fun hr => exec_ldi_of_ge s hr v, fun hlegal => encode_ldi_of_legal hlegal r v,
    step_fetch_outOfBounds, fun hrun hpc hbyte => ?operands⟩
  case result =>
    exact ⟨_, exec_ldi_of_lt s hr v, State.setReg_reg_same s _ v, State.setReg_sameRegsBut s ⟨r.toNat, hr⟩ v,
      rfl, rfl, fun _ => rfl, ⟨rfl, rfl⟩, rfl, rfl, rfl⟩
  case operands =>
    have hop : s.cfg.opcodes.lookup (s.byteAt s.pc) = some .ldi := hbyte ▸ OpcodeTable.lookup_ldi _
    refine ⟨fun hout => ⟨_, step_fetchOperands_error hrun hpc hop ?_, rfl⟩,
      fun hend => ⟨_, step_fetchOperands_error hrun hpc hop ?_, rfl⟩⟩
    · exact fetchOperands_error_op1 (by decide) hout
    · exact fetchOperands_error_op2 rfl (hend ▸ Nat.lt_succ_self _) hend.le

end Sys2Proof.Machine

/-! ## The ALU's interface

Which operation tags the ALU accepts, what each operation writes, and what the value it writes depends on (42_alu.md
R110). -/

namespace Sys2Proof.Machine

/-- An accepted operation writes one thing: ADD and MUL their first register, CMP the flags (R110). -/
theorem aluApply_ok {op : AluOp} {a b : RegIdx} {s t : State} (h : aluApply op a b s = .ok t) :
    (op = .add ∧ t = s.setReg a (narrow ((s.reg a).toNat + (s.reg b).toNat))) ∨
    (op = .mul ∧ t = s.setReg a (narrow ((s.reg a).toNat * (s.reg b).toNat))) ∨
    (op = .cmp ∧ t = s.setFl (compareFlags (s.reg a) (s.reg b))) := by
  cases op with
  | add => cases h; exact .inl ⟨rfl, rfl⟩
  | mul => cases h; exact .inr (.inl ⟨rfl, rfl⟩)
  | cmp => cases h; exact .inr (.inr ⟨rfl, rfl⟩)
  | other code => cases h

/-- The ALU accepts ADD, MUL and CMP and no other tag (R110, R114). -/
theorem aluApply_accepts_iff (op : AluOp) (a b : RegIdx) (s : State) :
    (∃ t, aluApply op a b s = .ok t) ↔ (op = .add ∨ op = .mul ∨ op = .cmp) := by
  constructor
  · rintro ⟨t, ht⟩
    exact (aluApply_ok ht).imp And.left (Or.imp And.left And.left)
  · rintro (rfl | rfl | rfl) <;> exact ⟨_, rfl⟩

/-- An ALU operation leaves memory, PC, outputs and control alone; CMP leaves the registers alone, ADD and MUL the flags
and every register but their first. -/
theorem aluApply_frame {op : AluOp} {a b : RegIdx} {s t : State} (h : aluApply op a b s = .ok t) :
    t.mem = s.mem ∧ t.pc = s.pc ∧ sameOutputs s t ∧ sameControl s t ∧
    (op = .cmp → t.regs = s.regs) ∧ (op ≠ .cmp → t.fl = s.fl ∧ sameRegsBut [a.val] s t) := by
  rcases aluApply_ok h with ⟨rfl, rfl⟩ | ⟨rfl, rfl⟩ | ⟨rfl, rfl⟩
  · exact ⟨rfl, rfl, ⟨rfl, rfl⟩, ⟨rfl, rfl, rfl⟩, nofun, fun _ => ⟨rfl, State.setReg_sameRegsBut s a _⟩⟩
  · exact ⟨rfl, rfl, ⟨rfl, rfl⟩, ⟨rfl, rfl, rfl⟩, nofun, fun _ => ⟨rfl, State.setReg_sameRegsBut s a _⟩⟩
  · exact ⟨rfl, rfl, ⟨rfl, rfl⟩, ⟨rfl, rfl, rfl⟩, fun _ => rfl, fun hne => absurd rfl hne⟩

/-- What an ALU operation writes is the same in any two states that agree on its two registers. -/
theorem aluApply_result_congr {op : AluOp} {a b : RegIdx} {s s' t t' : State} (ha : s.reg a = s'.reg a)
    (hb : s.reg b = s'.reg b) (h : aluApply op a b s = .ok t) (h' : aluApply op a b s' = .ok t') :
    (op = .cmp → t.fl = t'.fl) ∧ (op ≠ .cmp → t.reg a = t'.reg a) := by
  rcases aluApply_ok h with ⟨rfl, rfl⟩ | ⟨rfl, rfl⟩ | ⟨rfl, rfl⟩ <;> cases h'
  · exact ⟨nofun, fun _ => by simp only [State.setReg_reg_same, ha, hb]⟩
  · exact ⟨nofun, fun _ => by simp only [State.setReg_reg_same, ha, hb]⟩
  · exact ⟨fun _ => by simp only [State.setFl_fl, ha, hb], fun hne => absurd rfl hne⟩

/-- Settles O17: the accepted tags, the frame, and the dependence on the two registers, one lemma each. -/
theorem aluInterface : Obligations.AluInterface :=
  ⟨aluApply_accepts_iff, fun _ _ _ _ _ => aluApply_frame, fun _ _ _ _ _ _ _ => aluApply_result_congr⟩

end Sys2Proof.Machine

/-! ## The ends of a step

Who reports what (60_exceptions.md): the first illegal register byte of an instruction stops it before any effect (R173),
an instruction reports no other register byte and adds nothing to `ERR`, and a machine that has stopped stays stopped
(R171). -/

namespace Sys2Proof

/-- The first byte of `bs` that names no register, as the checks in operand order find it (R85, decision D10). -/
def firstIllegal (bs : List Byte) : Option Byte := bs.find? fun b => decide (8 ≤ b.toNat)

theorem firstIllegal_cons_of_lt {b : Byte} (h : b.toNat < 8) (bs : List Byte) :
    firstIllegal (b :: bs) = firstIllegal bs :=
  List.find?_cons_of_neg (by simp [h])

theorem firstIllegal_cons_of_ge {b : Byte} (h : 8 ≤ b.toNat) (bs : List Byte) : firstIllegal (b :: bs) = some b :=
  List.find?_cons_of_pos (by simp [h])

/-- What is found is one of the bytes, and illegal. -/
theorem firstIllegal_spec {bs : List Byte} {b : Byte} (h : firstIllegal bs = some b) : b ∈ bs ∧ 8 ≤ b.toNat :=
  ⟨List.mem_of_find?_eq_some h, of_decide_eq_true (List.find?_some h :)⟩

theorem Instr.wf_iff {i : Instr} : i.wf = true ↔ ∀ b ∈ i.regOperands, b.toNat < 8 := by
  simp [Instr.wf]

/-- An ill-formed instruction has a first illegal register byte. -/
theorem Instr.exists_firstIllegal {i : Instr} (h : i.wf = false) : ∃ b, firstIllegal i.regOperands = some b := by
  obtain ⟨b, hb, hill⟩ := List.all_eq_false.mp h
  refine Option.isSome_iff_exists.mp (List.find?_isSome.mpr ⟨b, hb, ?_⟩)
  simpa using hill

end Sys2Proof

namespace Sys2Proof.Machine

/-! ### The first illegal register byte stops the instruction -/

theorem regIdx_of_firstIllegal {r b : Byte} (h : firstIllegal [r] = some b) :
    regIdx r = .error (.registerIndexOutOfRange b) := by
  rcases regIdx_cases r with ⟨hr, -⟩ | ⟨hr, e⟩
  · cases (firstIllegal_cons_of_lt hr []).symm.trans h
  · cases (firstIllegal_cons_of_ge hr []).symm.trans h
    exact e

theorem regPair_of_firstIllegal {x y b : Byte} (h : firstIllegal [x, y] = some b) :
    regPair x y = .error (.registerIndexOutOfRange b) := by
  rcases regIdx_cases x with ⟨hx, e⟩ | ⟨hx, e⟩
  · have hy : regIdx y = .error (.registerIndexOutOfRange b) :=
      regIdx_of_firstIllegal ((firstIllegal_cons_of_lt hx [y]).symm.trans h)
    simp only [regPair, e, hy]
  · cases (firstIllegal_cons_of_ge hx [y]).symm.trans h
    simp only [regPair, e]

/-- The first illegal register byte is fatal, and nothing but `RUN` changes (R173): every meaning checks its operands
before it does anything. -/
theorem exec_of_firstIllegal {i : Instr} {b : Byte} (h : firstIllegal i.regOperands = some b) (s : State) :
    exec i s = .next (s.setRun (.fatal (.registerIndexOutOfRange b))) := by
  cases i with
  | ldi r _ | prn r | push r | pop r | jmp r =>
    simp only [exec, execLdi, execPrn, execPush, execPop, execJmp, regIdx_of_firstIllegal h]
    rfl
  | jeq r | jne r =>
    simp only [exec, execJeq, execJne, branchInstr, regIdx_of_firstIllegal h]
    rfl
  | mul a b | cmp a b | st a b =>
    simp only [exec, execMul, execCmp, aluInstr, execSt, regPair_of_firstIllegal h]
    rfl
  | hlt => cases h

/-! ### What an instruction reports -/

/-- From `s` to `t` no report is added to `ERR`, and a register byte for which `RUN` becomes fatal is an illegal one of
`bs`. -/
structure reportsOnly (bs : List Byte) (s t : State) : Prop where
  err : t.err = s.err
  run : ∀ b, t.run = .fatal (.registerIndexOutOfRange b) →
    s.run = .fatal (.registerIndexOutOfRange b) ∨ (b ∈ bs ∧ 8 ≤ b.toNat)

theorem State.memWrite_err {s t : State} {a : Nat} {v : Byte} (h : s.memWrite a v = .ok t) : t.err = s.err := by
  obtain ⟨-, ht, -⟩ := State.memWrite_spec h
  rw [ht]

/-- An operation that writes neither `ERR` nor `RUN` reports nothing. -/
theorem reportsOnly_of_eq {bs : List Byte} {s t : State} (herr : t.err = s.err) (hrun : t.run = s.run) :
    reportsOnly bs s t :=
  ⟨herr, fun _ h => .inl (hrun ▸ h)⟩

theorem reportsOnly_illegal {bs : List Byte} {b : Byte} (hb : b ∈ bs) (hill : 8 ≤ b.toNat) (s : State) :
    reportsOnly bs s (s.setRun (.fatal (.registerIndexOutOfRange b))) := by
  refine ⟨rfl, fun b' h => .inr ?_⟩
  cases h
  exact ⟨hb, hill⟩

theorem aluInstr_reportsOnly {op : AluOp} {a b : Byte} {s t : State} (h : aluInstr op a b s = .next t) :
    reportsOnly [a, b] s t := by
  rcases aluInstr_next h with ⟨ha, rfl⟩ | ⟨-, hb, rfl⟩ | ⟨_, -, rfl⟩ | ⟨_, _, u, hu, rfl⟩
  · exact reportsOnly_illegal (.head _) ha s
  · exact reportsOnly_illegal (.tail _ (.head _)) hb s
  · exact ⟨rfl, nofun⟩
  · obtain ⟨-, -, ⟨-, herr⟩, ⟨hrun, -⟩, -⟩ := aluApply_frame hu
    exact reportsOnly_of_eq herr hrun

theorem branchInstr_reportsOnly {want : FlagVal} {r : Byte} {s t : State} (h : branchInstr want r s = .next t) :
    reportsOnly [r] s t := by
  rcases branchInstr_next h with ⟨hr, rfl⟩ | ⟨_, -, rfl⟩ | ⟨-, -, rfl⟩ | ⟨-, -, rfl⟩
  · exact reportsOnly_illegal (.head _) hr s
  · exact reportsOnly_of_eq rfl rfl
  · exact reportsOnly_of_eq rfl rfl
  · exact ⟨rfl, nofun⟩

/-- No instruction adds to `ERR` (R32), and none is fatal for a register byte that is not an illegal one of its own
(R173). -/
theorem exec_reportsOnly {i : Instr} {s t : State} (h : exec i s = .next t) : reportsOnly i.regOperands s t := by
  cases i with
  | ldi r v =>
    rcases execLdi_next h with ⟨hr, rfl⟩ | ⟨_, rfl⟩
    · exact reportsOnly_illegal (.head _) hr s
    · exact reportsOnly_of_eq rfl rfl
  | prn r =>
    rcases execPrn_next h with ⟨hr, rfl⟩ | ⟨_, rfl⟩
    · exact reportsOnly_illegal (.head _) hr s
    · exact reportsOnly_of_eq rfl rfl
  | mul a b => exact aluInstr_reportsOnly (op := .mul) h
  | cmp a b => exact aluInstr_reportsOnly (op := .cmp) h
  | push r =>
    rcases execPush_next h with ⟨hr, rfl⟩ | ⟨-, -, rfl⟩ | ⟨_, u, hu, rfl⟩
    · exact reportsOnly_illegal (.head _) hr s
    · exact ⟨rfl, nofun⟩
    · exact reportsOnly_of_eq (State.memWrite_err hu :) (State.memWrite_run hu :)
  | pop r =>
    rcases execPop_next h with ⟨hr, rfl⟩ | ⟨-, -, rfl⟩ | ⟨_, -, rfl⟩
    · exact reportsOnly_illegal (.head _) hr s
    · exact ⟨rfl, nofun⟩
    · exact reportsOnly_of_eq rfl rfl
  | st a b =>
    rcases execSt_next h with
      ⟨ha, rfl⟩ | ⟨-, hb, rfl⟩ | ⟨-, -, -, rfl⟩ | ⟨_, -, -, -, rfl⟩ | ⟨_, _, u, -, hu, rfl⟩
    · exact reportsOnly_illegal (.head _) ha s
    · exact reportsOnly_illegal (.tail _ (.head _)) hb s
    · exact ⟨rfl, nofun⟩
    · exact ⟨rfl, nofun⟩
    · exact reportsOnly_of_eq (State.memWrite_err hu :) (State.memWrite_run hu :)
  | jmp r =>
    rcases execJmp_next h with ⟨hr, rfl⟩ | ⟨_, rfl⟩
    · exact reportsOnly_illegal (.head _) hr s
    · exact reportsOnly_of_eq rfl rfl
  | jeq r => exact branchInstr_reportsOnly h
  | jne r => exact branchInstr_reportsOnly h
  | hlt =>
    rw [execHlt_next h]
    exact ⟨rfl, nofun⟩

/-- Settles O36: an ill-formed instruction stops for its first illegal byte; one that stops for a register byte has an
illegal one, so it is not well formed. -/
theorem illegalRegisterIndexIsFatal : Obligations.IllegalRegisterIndexIsFatal := by
  refine ⟨fun i s hill => ?_, fun i s t b hwf hrun h hfatal => ?_⟩
  · obtain ⟨b, hb⟩ := Instr.exists_firstIllegal hill
    obtain ⟨hmem, hge⟩ := firstIllegal_spec hb
    exact ⟨b, hmem, hge, exec_of_firstIllegal hb s⟩
  · rcases (exec_reportsOnly h).run b hfatal with hs | ⟨hmem, hge⟩
    · cases hrun.symm.trans hs
    · exact absurd (Instr.wf_iff.mp hwf b hmem) (Nat.not_lt.mpr hge)

/-! ### Stopped machines -/

/-- A machine that is not running has no next state (R28). -/
theorem step_ne_next_of_stopped {s : State} (h : s.run ≠ .running) (t : State) : step s ≠ .next t :=
  fun hstep => h (step_next hstep).1

/-- A fatal machine does not halt (R171): the run from it is over where it starts. -/
theorem not_halts_of_fatal {s : State} {k : FatalKind} (h : s.run = .fatal k) : ¬ halts s := by
  rintro ⟨n, t, ht, hhalt⟩
  cases stopped_unique (runsTo_zero.mpr rfl) (by simp [h]) ht (by simp [hhalt])
  cases h.symm.trans hhalt

/-- A step that changes `ERR` is the one over an unknown opcode, and that one goes on (R83). -/
theorem step_running_of_err_ne {s t : State} (h : step s = .next t) (herr : t.err ≠ s.err) : t.run = .running := by
  obtain ⟨hrun, hc⟩ := step_next h
  rcases cycle_cases s with ⟨-, e⟩ | ⟨-, -, e⟩ | ⟨_, k, -, -, -, e⟩ | ⟨_, _, _, -, -, -, e⟩ <;> rw [e] at hc
  · rw [raise_next hc] at herr
    exact absurd rfl herr
  · cases hc
    exact hrun
  · rw [raise_next hc] at herr
    exact absurd rfl herr
  · exact absurd (exec_reportsOnly hc).err herr

/-- Settles O11: `raise` by its definition, and one lemma for each of the three other clauses. -/
theorem fatalAndHaltedAreTerminal : Obligations.FatalAndHaltedAreTerminal :=
  ⟨fun _ _ => ⟨_, rfl, rfl⟩, fun _ => step_ne_next_of_stopped, fun _ _ => not_halts_of_fatal,
    fun _ _ => step_running_of_err_ne⟩

end Sys2Proof.Machine

/-! ## The decoder

The table lookup as a search for a byte (30_encoding.md R65, R66), the decoder as the inverse of the encoder (R60), and
the step over decoded bytes (40_execution_cycle.md R80). -/

namespace Sys2Proof

/-! ### The table lookup -/

/-- The eleven tags, in the order of `OpcodeTable.bytes`. -/
def Tag.all : List Tag := [.ldi, .prn, .mul, .cmp, .push, .pop, .st, .jmp, .jeq, .jne, .hlt]

theorem Tag.mem_all (tag : Tag) : tag ∈ Tag.all := by
  cases tag <;> decide

theorem OpcodeTable.bytes_eq_map (t : OpcodeTable) : t.bytes = Tag.all.map t.byteOf := rfl

/-- In a table of distinct bytes two tags have different bytes (R6). -/
theorem OpcodeTable.byteOf_injective {t : OpcodeTable} (ht : t.distinct) : Function.Injective t.byteOf := by
  intro x y hxy
  rw [OpcodeTable.distinct, t.bytes_eq_map] at ht
  exact List.inj_on_of_nodup_map ht x.mem_all y.mem_all hxy

/-- A search that tries `x` first finds nothing when `x` is not it and the rest of the search finds nothing. -/
theorem ite_some_eq_none_iff {α : Type} {p : Prop} [Decidable p] {x : α} {o : Option α} :
    (if p then some x else o) = none ↔ ¬p ∧ o = none := by
  by_cases h : p <;> simp [h]

/-- The lookup finds nothing exactly for a byte outside the table (R66). -/
theorem OpcodeTable.lookup_eq_none_iff {t : OpcodeTable} {b : Byte} : t.lookup b = none ↔ b ∉ t.bytes := by
  simp [OpcodeTable.lookup, OpcodeTable.bytes, ite_some_eq_none_iff]

/-- In a table of distinct bytes the lookup finds a tag at exactly its own byte: at a byte of the table it finds some
tag, and no other has that byte (R65). -/
theorem OpcodeTable.lookup_eq_some_iff {t : OpcodeTable} (ht : t.distinct) {b : Byte} {tag : Tag} :
    t.lookup b = some tag ↔ b = t.byteOf tag := by
  refine ⟨fun h => (OpcodeTable.byteOf_of_lookup h).symm, ?_⟩
  rintro rfl
  rcases h : t.lookup (t.byteOf tag) with _ | tag'
  · exact absurd (t.byteOf_mem tag) (OpcodeTable.lookup_eq_none_iff.mp h)
  · rw [OpcodeTable.byteOf_injective ht (OpcodeTable.byteOf_of_lookup h)]

/-! ### The decoder and the encoder -/

/-- An opcode byte found under the tag of `i`, then the operand bytes of `i`: these decode to `i` (R60, R61). -/
theorem decode_of_lookup {t : OpcodeTable} {b : Byte} {i : Instr} (h : t.lookup b = some i.tag) (rest : List Byte) :
    decode t (b :: (i.operands ++ rest)) = .ok (i, rest) := by
  simp only [decode, h]
  cases i <;> rfl

/-- Bytes that decode are an opcode byte found under the tag of the instruction, its operand bytes, and the rest. -/
theorem decode_ok {t : OpcodeTable} {bs rest : List Byte} {i : Instr} (h : decode t bs = .ok (i, rest)) :
    ∃ b, t.lookup b = some i.tag ∧ bs = b :: (i.operands ++ rest) := by
  cases bs with
  | nil => cases h
  | cons b bs =>
    rcases hl : t.lookup b with _ | tag <;> simp only [decode, hl] at h
    · cases h
    · refine ⟨b, ?_⟩
      cases tag with
      | ldi | mul | cmp | st =>
        rcases bs with _ | ⟨x, _ | ⟨y, bs⟩⟩ <;> cases h
        exact ⟨hl, rfl⟩
      | prn | push | pop | jmp | jeq | jne =>
        rcases bs with _ | ⟨x, bs⟩ <;> cases h
        exact ⟨hl, rfl⟩
      | hlt =>
        cases h
        exact ⟨hl, rfl⟩

/-- Settles O1: in a table of distinct bytes the lookup finds the tag of the instruction at its byte, and then the
decoder reads the operand bytes. -/
theorem decodeOfEncode : Obligations.DecodeOfEncode := by
  intro t i rest ht
  exact decode_of_lookup ((OpcodeTable.lookup_eq_some_iff ht).mpr rfl) rest

/-- Settles O2: the byte the tag was found at is the tag's own. -/
theorem decodedBytesAreTheEncoding : Obligations.DecodedBytesAreTheEncoding := by
  intro t bs rest i h
  obtain ⟨b, hb, rfl⟩ := decode_ok h
  rw [encode, OpcodeTable.byteOf_of_lookup hb, List.cons_append]

/-- Settles O3, each word by running the decoder. -/
theorem specWordsDecode : Obligations.SpecWordsDecode :=
  ⟨rfl, rfl, rfl, rfl, rfl, rfl, rfl⟩

/-- Settles O4. -/
theorem lookupMatchesWholeByte : Obligations.LookupMatchesWholeByte :=
  fun _ _ _ ht => OpcodeTable.lookup_eq_some_iff ht

/-- After a byte that the table holds the decoder answers no unknown opcode, however many bytes follow. -/
theorem decode_ne_unknownOpcode {t : OpcodeTable} {b : Byte} {tag : Tag} (h : t.lookup b = some tag)
    (rest : List Byte) : decode t (b :: rest) ≠ .error (.unknownOpcode b) := by
  simp only [decode, h]
  split <;> nofun

/-- Settles O5: the decoder answers an unknown opcode exactly where the lookup finds no tag. -/
theorem bytesOutsideTheTableAreUnknown : Obligations.BytesOutsideTheTableAreUnknown := by
  intro t b rest
  rw [← OpcodeTable.lookup_eq_none_iff]
  rcases h : t.lookup b with _ | tag
  · simp only [decode, h]
  · exact ⟨fun hdec => absurd hdec (decode_ne_unknownOpcode h rest), nofun⟩

end Sys2Proof

namespace Sys2Proof.Machine

/-! ### The step over decoded bytes -/

/-- The bytes the fetch unit can see are the cells from the PC on. -/
theorem State.window_getElem? {s : State} {k : Nat} {b : Byte} (h : s.window[k]? = some b) :
    s.pc + k < s.cfg.memSize ∧ s.byteAt (s.pc + k) = b := by
  unfold State.window at h
  split at h
  · rcases k with _ | _ | _ | k <;> cases h <;> exact ⟨by omega, rfl⟩
  · split at h
    · rcases k with _ | _ | k <;> cases h <;> exact ⟨by omega, rfl⟩
    · split at h
      · rcases k with _ | k <;> cases h
        exact ⟨by omega, rfl⟩
      · cases h

/-- Where the window starts with an opcode byte and the operand bytes of `i`, the operand fetch under the tag of `i`
gets those bytes, and with them the tag makes `i` again (R82, R84). -/
theorem fetchOperands_of_window {s : State} {b : Byte} {i : Instr} {rest : List Byte}
    (h : s.window = b :: (i.operands ++ rest)) :
    ∃ x y, fetchOperands i.tag s = .ok (x, y) ∧ i.tag.assemble x y = i := by
  have hcell : ∀ k c, (b :: (i.operands ++ rest))[k]? = some c →
      ∀ kind, s.memRead kind (s.pc + k) = .ok c := by
    intro k c hc kind
    obtain ⟨hin, hbyte⟩ := State.window_getElem? (h ▸ hc)
    rw [State.memRead_ok hin, hbyte]
  cases i with
  | ldi x y | mul x y | cmp x y | st x y =>
    refine ⟨x, y, ?_, rfl⟩
    simp only [fetchOperands, Instr.tag, Tag.operandCount, hcell 1 x rfl, hcell 2 y rfl]
  | prn x | push x | pop x | jmp x | jeq x | jne x =>
    refine ⟨x, 0#8, ?_, rfl⟩
    simp only [fetchOperands, Instr.tag, Tag.operandCount, hcell 1 x rfl]
  | hlt => exact ⟨0#8, 0#8, rfl, rfl⟩

/-- With the operand bytes fetched, the step is the instruction they make, `IR` written (R80). -/
theorem step_of_fetchOperands {s : State} {tag : Tag} {x y : Byte} (hrun : s.run = .running)
    (hpc : s.pc < s.cfg.memSize) (hop : s.cfg.opcodes.lookup (s.byteAt s.pc) = some tag)
    (hfetch : fetchOperands tag (s.setIr (s.byteAt s.pc)) = .ok (x, y)) :
    step s = exec (tag.assemble x y) (s.setIr (s.byteAt s.pc)) := by
  rw [step_running hrun]
  simp only [cycle, State.memRead_ok hpc, State.setIr_cfg, hop, hfetch]

/-- What a decodable window says of the cells: the opcode byte at the PC is in bounds and found under the tag. -/
theorem opcode_of_decode_window {s : State} {i : Instr} {rest : List Byte}
    (h : decode s.cfg.opcodes s.window = .ok (i, rest)) :
    s.pc < s.cfg.memSize ∧ s.cfg.opcodes.lookup (s.byteAt s.pc) = some i.tag ∧
      s.window = s.byteAt s.pc :: (i.operands ++ rest) := by
  obtain ⟨b, hb, hw⟩ := decode_ok h
  obtain ⟨hpc, rfl⟩ : s.pc < s.cfg.memSize ∧ s.byteAt s.pc = b :=
    State.window_getElem? (k := 0) (by rw [hw, List.getElem?_cons_zero])
  exact ⟨hpc, hb, hw⟩

/-- Settles O6: the operand fetch gets the bytes the decoder read. -/
theorem stepRunsTheDecodedInstruction : Obligations.StepRunsTheDecodedInstruction := by
  intro s i rest hrun hdec
  obtain ⟨hpc, hop, hw⟩ := opcode_of_decode_window hdec
  obtain ⟨x, y, hfetch, hi⟩ := fetchOperands_of_window (s := s.setIr (s.byteAt s.pc)) hw
  rw [step_of_fetchOperands hrun hpc hop hfetch, hi]

end Sys2Proof.Machine

/-! ## What each instruction does

One equation per instruction and way it can end (41_ldi_prn.md, 42_alu.md, 43_stack_store.md, 44_control.md), and from
them the statements about single instructions. -/

namespace Sys2Proof.Machine

/-! ### The store -/

/-- The state with `v` in the cell at address `a`: what `MemWrite` leaves where the address exists (R41). -/
def State.store (s : State) (a : Nat) (v : Byte) : State := { s with mem := Memory.write s.unlisted s.mem a v }

namespace State

variable (s : State) (a : Nat) (v : Byte)

@[simp] theorem store_cfg : (s.store a v).cfg = s.cfg := rfl
@[simp] theorem store_regs : (s.store a v).regs = s.regs := rfl
@[simp] theorem store_pc : (s.store a v).pc = s.pc := rfl
@[simp] theorem store_ir : (s.store a v).ir = s.ir := rfl
@[simp] theorem store_fl : (s.store a v).fl = s.fl := rfl
@[simp] theorem store_run : (s.store a v).run = s.run := rfl
@[simp] theorem store_out : (s.store a v).out = s.out := rfl
@[simp] theorem store_err : (s.store a v).err = s.err := rfl
@[simp] theorem store_reg (j : RegIdx) : (s.store a v).reg j = s.reg j := rfl
@[simp] theorem store_regAddr (j : RegIdx) : (s.store a v).regAddr j = s.regAddr j := rfl

theorem memWrite_ok {s : State} {a : Nat} (h : a < s.cfg.memSize) (v : Byte) : s.memWrite a v = .ok (s.store a v) :=
  if_pos h

theorem memWrite_error {s : State} {a : Nat} (h : s.cfg.memSize ≤ a) (v : Byte) :
    s.memWrite a v = .error (.memoryOutOfBounds .write a) :=
  if_neg (Nat.not_lt.mpr h)

/-- The stored byte is read back (R41). -/
theorem store_byteAt_same {s : State} (h : s.memWf = true) (a : Nat) (v : Byte) : (s.store a v).byteAt a = v :=
  Memory.read_write_same h a v

/-- A store leaves every other cell alone (R41). -/
theorem store_byteAt_other (s : State) {a x : Nat} (h : x ≠ a) (v : Byte) : (s.store a v).byteAt x = s.byteAt x :=
  Memory.read_write_other s.mem h v

theorem store_memWf {s : State} (h : s.memWf = true) (a : Nat) (v : Byte) : (s.store a v).memWf = true :=
  Memory.write_wf h a v

theorem store_bounded {s : State} (h : Memory.bounded s.cfg.memSize s.mem = true) {a : Nat}
    (ha : a < s.cfg.memSize) (v : Byte) : Memory.bounded s.cfg.memSize (s.store a v).mem = true :=
  Memory.write_bounded h ha v

@[simp] theorem setReg_regAddr_same (i : RegIdx) (v : Byte) : (s.setReg i v).regAddr i = v.toNat :=
  congrArg BitVec.toNat (s.setReg_reg_same i v)

end State

/-! ### Bytes and register numbers -/

/-- A register byte of 0 to 7 names the register of that number. -/
theorem regOf_of_lt {r : Byte} (hr : r.toNat < 8) : regOf r = ⟨r.toNat, hr⟩ :=
  Fin.ext (Nat.mod_eq_of_lt hr)

/-- A register byte names the stack pointer when it is 7. -/
theorem regIdx_eq_SP_iff {r : Byte} (hr : r.toNat < 8) : (⟨r.toNat, hr⟩ : RegIdx) = SP ↔ r.toNat = 7 :=
  Fin.ext_iff

theorem toNat_narrow (n : Nat) : (narrow n).toNat = n % 256 := BitVec.toNat_ofNat n 8

/-- The decremented stack pointer as a number: one less, and 255 below 0 (decision D15). -/
theorem toNat_spDown (sp : Byte) : (spDown sp).toNat = if sp.toNat = 0 then 255 else sp.toNat - 1 := by
  have hsp := sp.isLt
  rw [spDown, toNat_narrow]
  split <;> omega

theorem toNat_spUp (sp : Byte) : (spUp sp).toNat = (sp.toNat + 1) % 256 := toNat_narrow _

/-- POP's increment undoes PUSH's decrement, the wrap included. -/
theorem spUp_spDown (sp : Byte) : spUp (spDown sp) = sp := by
  apply BitVec.eq_of_toNat_eq
  have hsp := sp.isLt
  rw [toNat_spUp, toNat_spDown]
  split <;> omega

/-! ### Load, output and the ALU -/

theorem compareFlags_of_eq {x y : Byte} (h : x.toNat = y.toNat) : compareFlags x y = ⟨.one, .zero, .zero⟩ :=
  if_pos h

theorem compareFlags_of_lt {x y : Byte} (h : x.toNat < y.toNat) : compareFlags x y = ⟨.zero, .one, .zero⟩ := by
  rw [compareFlags, if_neg h.ne, if_pos h]

theorem compareFlags_of_gt {x y : Byte} (h : y.toNat < x.toNat) : compareFlags x y = ⟨.zero, .zero, .one⟩ := by
  rw [compareFlags, if_neg h.ne', if_neg h.asymm]

/-- PRN of one of the eight registers emits it and adds 2 to the PC. -/
theorem exec_prn_of_lt {r : Byte} (s : State) (hr : r.toNat < 8) :
    exec (.prn r) s = .next ((s.emitOut (s.reg ⟨r.toNat, hr⟩)).advance 2) := by
  simp only [exec, execPrn, regIdx_ok hr]

/-- MUL of two registers writes the low byte of their product to the first and adds 3 to the PC. -/
theorem exec_mul_of_lt {a b : Byte} (s : State) (ha : a.toNat < 8) (hb : b.toNat < 8) :
    exec (.mul a b) s = .next ((s.setReg ⟨a.toNat, ha⟩
      (narrow ((s.reg ⟨a.toNat, ha⟩).toNat * (s.reg ⟨b.toNat, hb⟩).toNat))).advance 3) := by
  simp only [exec, execMul, aluInstr, regPair, regIdx_ok ha, regIdx_ok hb, aluApply]

/-! ### Stack and store -/

/-- What PUSH leaves: the stack pointer decremented, and at the new top the register as it is after that (R130). -/
def State.pushed (s : State) (r : RegIdx) : State :=
  ((s.setReg SP (spDown (s.reg SP))).store (spDown (s.reg SP)).toNat
    ((s.setReg SP (spDown (s.reg SP))).reg r)).advance 2

/-- What POP leaves: the byte at the stack top in the register, and after that the stack pointer incremented (R131). -/
def State.popped (s : State) (r : RegIdx) : State :=
  ((s.setReg r (s.byteAt (s.regAddr SP))).setReg SP (spUp ((s.setReg r (s.byteAt (s.regAddr SP))).reg SP))).advance 2

namespace State

variable (s : State)

@[simp] theorem pushed_reg_SP (r : RegIdx) : (s.pushed r).reg SP = spDown (s.reg SP) :=
  s.setReg_reg_same SP _

theorem pushed_reg_other (r : RegIdx) {j : RegIdx} (h : j ≠ SP) : (s.pushed r).reg j = s.reg j :=
  s.setReg_reg_other h.symm _

/-- At the new stack top stands the register pushed; PUSH of the stack pointer itself stores it decremented (decision
D12). -/
theorem pushed_byteAt_top {s : State} (hwf : s.memWf = true) (r : RegIdx) :
    (s.pushed r).byteAt (spDown (s.reg SP)).toNat = if r = SP then spDown (s.reg SP) else s.reg r := by
  rw [pushed, advance_byteAt, store_byteAt_same (by rwa [setReg_memWf]), setReg_reg]
  simp only [eq_comm]

theorem pushed_byteAt_other (r : RegIdx) {a : Nat} (h : a ≠ (spDown (s.reg SP)).toNat) :
    (s.pushed r).byteAt a = s.byteAt a :=
  (s.setReg SP _).store_byteAt_other h _

theorem pushed_memWf {s : State} (hwf : s.memWf = true) (r : RegIdx) : (s.pushed r).memWf = true :=
  store_memWf (s := s.setReg SP _) hwf _ _

theorem popped_reg_same {r : RegIdx} (h : r ≠ SP) : (s.popped r).reg r = s.byteAt (s.regAddr SP) := by
  rw [popped, advance_reg, setReg_reg_other _ h.symm, setReg_reg_same]

theorem popped_reg_SP {r : RegIdx} (h : r ≠ SP) : (s.popped r).reg SP = spUp (s.reg SP) := by
  rw [popped, advance_reg, setReg_reg_same, setReg_reg_other _ h]

/-- POP of the stack pointer itself ends with the loaded byte plus 1 (decision D12). -/
theorem popped_SP_reg_SP : (s.popped SP).reg SP = spUp (s.byteAt (s.regAddr SP)) := by
  rw [popped, advance_reg, setReg_reg_same, setReg_reg_same]

theorem popped_reg_other {r j : RegIdx} (hr : j ≠ r) (hsp : j ≠ SP) : (s.popped r).reg j = s.reg j := by
  rw [popped, advance_reg, setReg_reg_other _ hsp.symm, setReg_reg_other _ hr.symm]

end State

/-- PUSH with the decremented stack pointer in bounds. -/
theorem exec_push_of_lt {r : Byte} {s : State} (hr : r.toNat < 8) (hin : (spDown (s.reg SP)).toNat < s.cfg.memSize) :
    exec (.push r) s = .next (s.pushed ⟨r.toNat, hr⟩) := by
  simp only [exec, execPush, regIdx_ok hr, State.setReg_regAddr_same, State.memWrite_ok (s := s.setReg _ _) hin]
  rfl

/-- PUSH fatal at its store keeps the decremented stack pointer (R178). -/
theorem exec_push_outOfBounds {r : Byte} {s : State} (hr : r.toNat < 8)
    (hout : s.cfg.memSize ≤ (spDown (s.reg SP)).toNat) :
    exec (.push r) s = .next ((s.setReg SP (spDown (s.reg SP))).setRun
      (.fatal (.memoryOutOfBounds .write (spDown (s.reg SP)).toNat))) := by
  simp only [exec, execPush, regIdx_ok hr, State.setReg_regAddr_same, State.memWrite_error (s := s.setReg _ _) hout]
  rfl

/-- POP with the stack pointer in bounds. -/
theorem exec_pop_of_lt {r : Byte} {s : State} (hr : r.toNat < 8) (hin : s.regAddr SP < s.cfg.memSize) :
    exec (.pop r) s = .next (s.popped ⟨r.toNat, hr⟩) := by
  simp only [exec, execPop, regIdx_ok hr, State.memRead_ok hin]
  rfl

theorem exec_pop_outOfBounds {r : Byte} {s : State} (hr : r.toNat < 8) (hout : s.cfg.memSize ≤ s.regAddr SP) :
    exec (.pop r) s = .next (s.setRun (.fatal (.memoryOutOfBounds .read (s.regAddr SP)))) := by
  simp only [exec, execPop, regIdx_ok hr, State.memRead_error hout]
  rfl

/-- ST under the store policy with its address in bounds. -/
theorem exec_st_of_lt {a b : Byte} {s : State} (ha : a.toNat < 8) (hb : b.toNat < 8) (hpol : s.cfg.stPolicy = .store)
    (hin : s.regAddr ⟨a.toNat, ha⟩ < s.cfg.memSize) :
    exec (.st a b) s = .next ((s.store (s.regAddr ⟨a.toNat, ha⟩) (s.reg ⟨b.toNat, hb⟩)).advance s.cfg.stPcAdvance) := by
  simp only [exec, execSt, regPair, regIdx_ok ha, regIdx_ok hb, hpol, State.memWrite_ok hin]

theorem exec_st_outOfBounds {a b : Byte} {s : State} (ha : a.toNat < 8) (hb : b.toNat < 8)
    (hpol : s.cfg.stPolicy = .store) (hout : s.cfg.memSize ≤ s.regAddr ⟨a.toNat, ha⟩) :
    exec (.st a b) s = .next (s.setRun (.fatal (.memoryOutOfBounds .write (s.regAddr ⟨a.toNat, ha⟩)))) := by
  simp only [exec, execSt, regPair, regIdx_ok ha, regIdx_ok hb, hpol, State.memWrite_error hout]
  rfl

theorem exec_st_faultPolicy {a b : Byte} {s : State} (ha : a.toNat < 8) (hb : b.toNat < 8)
    (hpol : s.cfg.stPolicy = .fault) : exec (.st a b) s = .next (s.setRun (.fatal .undefinedStoreTarget)) := by
  simp only [exec, execSt, regPair, regIdx_ok ha, regIdx_ok hb, hpol]
  rfl

/-! ### Jumps -/

theorem exec_jmp_of_lt {r : Byte} (s : State) (hr : r.toNat < 8) :
    exec (.jmp r) s = .next (s.setPc (s.regAddr ⟨r.toNat, hr⟩)) := by
  simp only [exec, execJmp, regIdx_ok hr]

/-- A conditional jump before any compare under the fall-through policy (R154). -/
theorem branchInstr_fallthrough {want : FlagVal} {r : Byte} {s : State} (hr : r.toNat < 8) (hfl : s.fl.eq = .uninit)
    (hpol : s.cfg.flagUPolicy = .fallthrough) : branchInstr want r s = .next (s.advance 2) := by
  simp only [branchInstr, regIdx_ok hr, hfl, hpol, branchTest]

/-- A conditional jump that may read the eq flag is taken exactly when the flag has the value it wants: an uninitialised
flag has neither (R151, R152, R154). -/
theorem branchInstr_of_readable {want : FlagVal} {r : Byte} {s : State} (hr : r.toNat < 8) (hwant : want ≠ .uninit)
    (hfl : s.fl.eq = .uninit → s.cfg.flagUPolicy = .fallthrough) :
    branchInstr want r s = .next (s.setPc (if s.fl.eq = want then s.regAddr ⟨r.toNat, hr⟩ else s.pc + 2)) := by
  rcases he : s.fl.eq with _ | _ | _
  · rw [branchInstr_fallthrough hr he (hfl he), if_neg hwant.symm]
    rfl
  · simp only [branchInstr, regIdx_ok hr, he]
    cases want <;> rfl
  · simp only [branchInstr, regIdx_ok hr, he]
    cases want <;> rfl

/-- A conditional jump before any compare under the fault policy (R154). -/
theorem branchInstr_uninitialised {want : FlagVal} {r : Byte} {s : State} (hr : r.toNat < 8) (hfl : s.fl.eq = .uninit)
    (hpol : s.cfg.flagUPolicy = .fault) :
    branchInstr want r s = .next (s.setRun (.fatal .uninitialisedFlagRead)) := by
  simp only [branchInstr, regIdx_ok hr, hfl, hpol, branchTest]
  rfl

/-! ### The statements about single instructions -/

/-- Settles O13: the next state of `exec_prn_of_lt`, field by field. -/
theorem prnEmitsTheRegister : Obligations.PrnEmitsTheRegister := by
  intro s r hr
  exact ⟨_, exec_prn_of_lt s hr, rfl, rfl, rfl, fun _ _ => rfl, rfl, fun _ => rfl, rfl, rfl, rfl⟩

/-- Settles O14: narrowing keeps the product modulo 256. -/
theorem mulKeepsTheLowByte : Obligations.MulKeepsTheLowByte := by
  intro s a b ha hb
  refine ⟨_, exec_mul_of_lt s ha hb, ?_, s.setReg_sameRegsBut ⟨a.toNat, ha⟩ _, rfl, rfl, fun _ => rfl, ⟨rfl, rfl⟩,
    rfl, rfl, rfl⟩
  rw [State.advance_reg, State.setReg_reg_same, toNat_narrow]

/-- Settles O15: the flags of each of the three orders. -/
theorem cmpSetsTheFlagsByUnsignedOrder : Obligations.CmpSetsTheFlagsByUnsignedOrder := by
  intro s a b ha hb
  exact ⟨_, execCmp_of_lt s ha hb, compareFlags_of_eq, compareFlags_of_lt, compareFlags_of_gt, fun _ _ => rfl, rfl,
    fun _ => rfl, ⟨rfl, rfl⟩, rfl, rfl, rfl⟩

/-- Settles O18: narrowing keeps the sum modulo 256. -/
theorem aluAddKeepsTheLowByte : Obligations.AluAddKeepsTheLowByte := by
  intro s a b
  refine ⟨_, rfl, ?_, s.setReg_sameRegsBut a _, rfl⟩
  rw [State.setReg_reg_same, toNat_narrow]

/-- Settles O20: the byte stored is read after the decrement, so `PUSH R7` stores the decremented stack pointer. -/
theorem pushStoresBelowTheStackTop : Obligations.PushStoresBelowTheStackTop := by
  intro s r hr hin
  refine ⟨_, exec_push_of_lt hr hin, ?_, s.pushed_reg_SP _, fun hwf => ?_, fun _ => s.pushed_byteAt_other _,
    s.setReg_sameRegsBut SP _, rfl, rfl, ⟨rfl, rfl⟩, rfl, rfl, rfl⟩
  · rw [State.pushed_reg_SP, toNat_spDown]
  · simp only [State.pushed_byteAt_top hwf, regIdx_eq_SP_iff]

/-- Settles O21: the increment reads the stack pointer after the register is written, which matters for `POP R7`. -/
theorem popLoadsTheStackTop : Obligations.PopLoadsTheStackTop := by
  intro s r hr hin
  refine ⟨_, exec_pop_of_lt hr hin, fun h7 => ?_, fun h7 => ?_, fun j hj => ?_, fun _ => rfl, rfl, rfl,
    ⟨rfl, rfl⟩, rfl, rfl, rfl⟩
  · have hne := mt (regIdx_eq_SP_iff hr).mp h7
    exact ⟨s.popped_reg_same hne, by rw [s.popped_reg_SP hne, toNat_spUp]⟩
  · rw [(regIdx_eq_SP_iff hr).mpr h7, State.popped_SP_reg_SP, toNat_spUp]
  · simp only [List.mem_cons, List.not_mem_nil, or_false, not_or] at hj
    exact s.popped_reg_other (fun e => hj.1 (congrArg Fin.val e)) fun e => hj.2 (congrArg Fin.val e)

/-- Settles O22: the next state of `exec_st_of_lt`, field by field. -/
theorem stStoresAtTheRegisterAddress : Obligations.StStoresAtTheRegisterAddress := by
  intro s a b ha hb hpol hin
  exact ⟨_, exec_st_of_lt ha hb hpol hin, rfl, fun hwf => State.store_byteAt_same hwf _ _,
    fun _ hx => s.store_byteAt_other hx _, fun _ _ => rfl, rfl, ⟨rfl, rfl⟩, rfl, rfl, rfl⟩

/-- Settles O23. -/
theorem stUnderTheFaultPolicyIsFatal : Obligations.StUnderTheFaultPolicyIsFatal :=
  fun _ _ _ => exec_st_faultPolicy

/-- Settles O24: the three equations of a data access out of bounds. -/
theorem dataAccessOutOfBoundsIsFatal : Obligations.DataAccessOutOfBoundsIsFatal :=
  ⟨fun _ _ => exec_push_outOfBounds, fun _ _ => exec_pop_outOfBounds, fun _ _ _ => exec_st_outOfBounds⟩

/-- Settles O29: the next state of `exec_jmp_of_lt`, field by field. -/
theorem jmpGoesToTheRegister : Obligations.JmpGoesToTheRegister := by
  intro s r hr
  exact ⟨_, exec_jmp_of_lt s hr, rfl, fun _ _ => rfl, rfl, fun _ => rfl, ⟨rfl, rfl⟩, rfl, rfl, rfl⟩

/-- Settles O30: JEQ is the conditional jump that wants 1. -/
theorem jeqIsTakenOnEqual : Obligations.JeqIsTakenOnEqual := by
  intro s r hr hfl
  refine ⟨_, branchInstr_of_readable (want := .one) hr nofun (absurd · hfl), fun he => if_pos he, fun he => if_neg ?_,
    fun _ _ => rfl, rfl, fun _ => rfl, ⟨rfl, rfl⟩, rfl, rfl, rfl⟩
  rw [he]
  nofun

/-- Settles O31: JNE is the conditional jump that wants 0. -/
theorem jneIsTakenOnNotEqual : Obligations.JneIsTakenOnNotEqual := by
  intro s r hr hfl
  refine ⟨_, branchInstr_of_readable (want := .zero) hr nofun (absurd · hfl), fun he => if_pos he, fun he => if_neg ?_,
    fun _ _ => rfl, rfl, fun _ => rfl, ⟨rfl, rfl⟩, rfl, rfl, rfl⟩
  rw [he]
  nofun

/-- Settles O32: both conditional jumps under either policy, whichever value they want. -/
theorem conditionalJumpOnUninitialisedFlag : Obligations.ConditionalJumpOnUninitialisedFlag := by
  intro s r hr hfl
  exact ⟨fun hpol => ⟨branchInstr_fallthrough hr hfl hpol, branchInstr_fallthrough hr hfl hpol⟩,
    fun hpol => ⟨branchInstr_uninitialised hr hfl hpol, branchInstr_uninitialised hr hfl hpol⟩⟩

/-- Settles O33: HLT writes `RUN` alone. -/
theorem hltHalts : Obligations.HltHalts :=
  fun _ => ⟨_, rfl, rfl, rfl, fun _ _ => rfl, rfl, fun _ => rfl, ⟨rfl, rfl⟩, rfl, rfl⟩

/-- Settles O37: the check in operand order comes before everything else an instruction does. -/
theorem firstIllegalOperandIsReported : Obligations.FirstIllegalOperandIsReported :=
  fun _ s _ h => exec_of_firstIllegal h s

end Sys2Proof.Machine

/-! ## Every way an instruction or a step can end

Two relations that list them, one constructor for each, and the proof that `exec` and `step` answer nothing else; then
the statements about all instructions and all steps, each by the cases of these relations. -/

namespace Sys2Proof

theorem Instr.regOperand_lt {i : Instr} (hwf : i.wf = true) {b : Byte} (hb : b ∈ i.regOperands) : b.toNat < 8 :=
  Instr.wf_iff.mp hwf b hb

theorem Tag.tag_assemble (tag : Tag) (x y : Byte) : (tag.assemble x y).tag = tag := by
  cases tag <;> rfl

end Sys2Proof

namespace Sys2Proof.Machine

/-! ### Every way an instruction can end -/

/-- The instruction stops in `s` with this fatal kind before it has any effect: for an illegal register byte, at POP's
load or ST's store out of bounds, or by one of the two policies. -/
inductive stopsWith (s : State) : Instr → FatalKind → Prop
  | illegal {i : Instr} {b : Byte} (hb : firstIllegal i.regOperands = some b) :
      stopsWith s i (.registerIndexOutOfRange b)
  | popLoad {r : Byte} (hr : r.toNat < 8) (hout : s.cfg.memSize ≤ s.regAddr SP) :
      stopsWith s (.pop r) (.memoryOutOfBounds .read (s.regAddr SP))
  | stStore {a b : Byte} (ha : a.toNat < 8) (hb : b.toNat < 8) (hpol : s.cfg.stPolicy = .store)
      (hout : s.cfg.memSize ≤ s.regAddr ⟨a.toNat, ha⟩) :
      stopsWith s (.st a b) (.memoryOutOfBounds .write (s.regAddr ⟨a.toNat, ha⟩))
  | stPolicy {a b : Byte} (ha : a.toNat < 8) (hb : b.toNat < 8) (hpol : s.cfg.stPolicy = .fault) :
      stopsWith s (.st a b) .undefinedStoreTarget
  | flagPolicy {i : Instr} (hi : isConditional i = true) (hwf : i.wf = true) (hfl : s.fl.eq = .uninit)
      (hpol : s.cfg.flagUPolicy = .fault) : stopsWith s i .uninitialisedFlagRead

/-- The instruction, executed in `s`, ends in this state. -/
inductive endsIn (s : State) : Instr → State → Prop
  | stop {i : Instr} {k : FatalKind} (hk : stopsWith s i k) : endsIn s i (s.setRun (.fatal k))
  | pushStop {r : Byte} (hr : r.toNat < 8) (hout : s.cfg.memSize ≤ (spDown (s.reg SP)).toNat) :
      endsIn s (.push r) ((s.setReg SP (spDown (s.reg SP))).setRun
        (.fatal (.memoryOutOfBounds .write (spDown (s.reg SP)).toNat)))
  | hlt : endsIn s .hlt (s.setRun .halted)
  | ldi {r v : Byte} (hr : r.toNat < 8) : endsIn s (.ldi r v) ((s.setReg ⟨r.toNat, hr⟩ v).advance 3)
  | prn {r : Byte} (hr : r.toNat < 8) : endsIn s (.prn r) ((s.emitOut (s.reg ⟨r.toNat, hr⟩)).advance 2)
  | mul {a b : Byte} (ha : a.toNat < 8) (hb : b.toNat < 8) : endsIn s (.mul a b) ((s.setReg ⟨a.toNat, ha⟩
      (narrow ((s.reg ⟨a.toNat, ha⟩).toNat * (s.reg ⟨b.toNat, hb⟩).toNat))).advance 3)
  | cmp {a b : Byte} (ha : a.toNat < 8) (hb : b.toNat < 8) : endsIn s (.cmp a b)
      ((s.setFl (compareFlags (s.reg ⟨a.toNat, ha⟩) (s.reg ⟨b.toNat, hb⟩))).advance 3)
  | push {r : Byte} (hr : r.toNat < 8) (hin : (spDown (s.reg SP)).toNat < s.cfg.memSize) :
      endsIn s (.push r) (s.pushed ⟨r.toNat, hr⟩)
  | pop {r : Byte} (hr : r.toNat < 8) (hin : s.regAddr SP < s.cfg.memSize) :
      endsIn s (.pop r) (s.popped ⟨r.toNat, hr⟩)
  | st {a b : Byte} (ha : a.toNat < 8) (hb : b.toNat < 8) (hpol : s.cfg.stPolicy = .store)
      (hin : s.regAddr ⟨a.toNat, ha⟩ < s.cfg.memSize) :
      endsIn s (.st a b)
        ((s.store (s.regAddr ⟨a.toNat, ha⟩) (s.reg ⟨b.toNat, hb⟩)).advance s.cfg.stPcAdvance)
  | jmp {r : Byte} (hr : r.toNat < 8) : endsIn s (.jmp r) (s.setPc (s.regAddr ⟨r.toNat, hr⟩))
  | branch {i : Instr} (hi : isConditional i = true) (hwf : i.wf = true)
      (hfl : s.fl.eq = .uninit → s.cfg.flagUPolicy = .fallthrough) : endsIn s i (s.setPc (nextPc i s))

/-- A conditional jump that may read the eq flag goes where the PC table says. -/
theorem exec_branch {i : Instr} {s : State} (hi : isConditional i = true) (hwf : i.wf = true)
    (hfl : s.fl.eq = .uninit → s.cfg.flagUPolicy = .fallthrough) : exec i s = .next (s.setPc (nextPc i s)) := by
  cases i with
  | jeq r | jne r =>
    have hr : r.toNat < 8 := Instr.regOperand_lt hwf (.head _)
    rw [nextPc, regOf_of_lt hr]
    exact branchInstr_of_readable hr nofun hfl
  | _ => cases hi

theorem exec_of_stopsWith {i : Instr} {s : State} {k : FatalKind} (h : stopsWith s i k) :
    exec i s = .next (s.setRun (.fatal k)) := by
  cases h with
  | illegal hb => exact exec_of_firstIllegal hb s
  | popLoad hr hout => exact exec_pop_outOfBounds hr hout
  | stStore ha hb hpol hout => exact exec_st_outOfBounds ha hb hpol hout
  | stPolicy ha hb hpol => exact exec_st_faultPolicy ha hb hpol
  | flagPolicy hi hwf hfl hpol =>
    cases i with
    | jeq r | jne r => exact branchInstr_uninitialised (Instr.regOperand_lt hwf (.head _)) hfl hpol
    | _ => cases hi

theorem exec_of_endsIn {i : Instr} {s t : State} (h : endsIn s i t) : exec i s = .next t := by
  cases h with
  | stop hk => exact exec_of_stopsWith hk
  | pushStop hr hout => exact exec_push_outOfBounds hr hout
  | hlt => rfl
  | ldi hr => exact exec_ldi_of_lt s hr _
  | prn hr => exact exec_prn_of_lt s hr
  | mul ha hb => exact exec_mul_of_lt s ha hb
  | cmp ha hb => exact execCmp_of_lt s ha hb
  | push hr hin => exact exec_push_of_lt hr hin
  | pop hr hin => exact exec_pop_of_lt hr hin
  | st ha hb hpol hin => exact exec_st_of_lt ha hb hpol hin
  | jmp hr => exact exec_jmp_of_lt s hr
  | branch hi hwf hfl => exact exec_branch hi hwf hfl

/-- A conditional jump with a legal register byte branches or stops by the policy. -/
theorem endsIn_conditional_total {i : Instr} (s : State) (hi : isConditional i = true) (hwf : i.wf = true) :
    ∃ t, endsIn s i t := by
  by_cases hfl : s.fl.eq = .uninit
  · rcases hpol : s.cfg.flagUPolicy with _ | _
    · exact ⟨_, .branch hi hwf fun _ => hpol⟩
    · exact ⟨_, .stop (.flagPolicy hi hwf hfl hpol)⟩
  · exact ⟨_, .branch hi hwf (absurd · hfl)⟩

/-- The list of ways to end is complete: an instruction has an illegal register byte, or its operands, its policy and
the bound of its data access decide. -/
theorem endsIn_total (i : Instr) (s : State) : ∃ t, endsIn s i t := by
  rcases hwf : i.wf with _ | _
  · obtain ⟨b, hb⟩ := Instr.exists_firstIllegal hwf
    exact ⟨_, .stop (.illegal hb)⟩
  · cases i with
    | ldi r v => exact ⟨_, .ldi (Instr.regOperand_lt hwf (.head _))⟩
    | prn r => exact ⟨_, .prn (Instr.regOperand_lt hwf (.head _))⟩
    | mul a b => exact ⟨_, .mul (Instr.regOperand_lt hwf (.head _)) (Instr.regOperand_lt hwf (.tail _ (.head _)))⟩
    | cmp a b => exact ⟨_, .cmp (Instr.regOperand_lt hwf (.head _)) (Instr.regOperand_lt hwf (.tail _ (.head _)))⟩
    | push r =>
      have hr := Instr.regOperand_lt hwf (.head _)
      rcases Nat.lt_or_ge (spDown (s.reg SP)).toNat s.cfg.memSize with hin | hout
      · exact ⟨_, .push hr hin⟩
      · exact ⟨_, .pushStop hr hout⟩
    | pop r =>
      have hr := Instr.regOperand_lt hwf (.head _)
      rcases Nat.lt_or_ge (s.regAddr SP) s.cfg.memSize with hin | hout
      · exact ⟨_, .pop hr hin⟩
      · exact ⟨_, .stop (.popLoad hr hout)⟩
    | st a b =>
      have ha := Instr.regOperand_lt hwf (.head _)
      have hb := Instr.regOperand_lt hwf (.tail _ (.head _))
      rcases hpol : s.cfg.stPolicy with _ | _
      · rcases Nat.lt_or_ge (s.regAddr ⟨a.toNat, ha⟩) s.cfg.memSize with hin | hout
        · exact ⟨_, .st ha hb hpol hin⟩
        · exact ⟨_, .stop (.stStore ha hb hpol hout)⟩
      · exact ⟨_, .stop (.stPolicy ha hb hpol)⟩
    | jmp r => exact ⟨_, .jmp (Instr.regOperand_lt hwf (.head _))⟩
    | jeq r | jne r => exact endsIn_conditional_total s rfl hwf
    | hlt => exact ⟨_, .hlt⟩

/-- What `exec` answers is what the list says: some way to end applies, and `exec` is a function. -/
theorem endsIn_of_exec {i : Instr} {s t : State} (h : exec i s = .next t) : endsIn s i t := by
  obtain ⟨t', ht'⟩ := endsIn_total i s
  cases (exec_of_endsIn ht').symm.trans h
  exact ht'

/-! ### Every way a step can end -/

/-- A step from `s` ends in this state. -/
inductive stepsTo (s : State) : State → Prop
  | fetchStop (hout : s.cfg.memSize ≤ s.pc) : stepsTo s (s.setRun (.fatal (.memoryOutOfBounds .fetch s.pc)))
  | unknown (hpc : s.pc < s.cfg.memSize) (hop : s.cfg.opcodes.lookup (s.byteAt s.pc) = none) :
      stepsTo s (((s.setIr (s.byteAt s.pc)).emitErr ⟨s.pc, s.byteAt s.pc⟩).advance 1)
  | operandStop {tag : Tag} {a : Nat} (hpc : s.pc < s.cfg.memSize)
      (hop : s.cfg.opcodes.lookup (s.byteAt s.pc) = some tag)
      (hfetch : fetchOperands tag (s.setIr (s.byteAt s.pc)) = .error (.memoryOutOfBounds .operand a))
      (hout : s.cfg.memSize ≤ a) (hle : a ≤ s.pc + 2) :
      stepsTo s ((s.setIr (s.byteAt s.pc)).setRun (.fatal (.memoryOutOfBounds .operand a)))
  | execute {tag : Tag} {x y : Byte} {t : State} (hpc : s.pc < s.cfg.memSize)
      (hop : s.cfg.opcodes.lookup (s.byteAt s.pc) = some tag)
      (hfetch : fetchOperands tag (s.setIr (s.byteAt s.pc)) = .ok (x, y))
      (hend : endsIn (s.setIr (s.byteAt s.pc)) (tag.assemble x y) t) : stepsTo s t

/-- An operand fetch that fails does so at one of the two addresses after the opcode byte. -/
theorem fetchOperands_error_bounds {tag : Tag} {s : State} {k : FatalKind} (h : fetchOperands tag s = .error k) :
    ∃ a, k = .memoryOutOfBounds .operand a ∧ s.cfg.memSize ≤ a ∧ a ≤ s.pc + 2 := by
  rcases fetchOperands_cases tag s with
    ⟨-, e⟩ | ⟨-, -, e⟩ | ⟨-, -, e⟩ | ⟨-, hout, e⟩ | ⟨-, -, hout, e⟩ <;> cases e.symm.trans h
  · exact ⟨_, rfl, hout, by omega⟩
  · exact ⟨_, rfl, hout, by omega⟩

/-- What `step` answers is what the list says, and it answers only for a running machine. -/
theorem stepsTo_of_step {s t : State} (h : step s = .next t) : s.run = .running ∧ stepsTo s t := by
  obtain ⟨hrun, hc⟩ := step_next h
  refine ⟨hrun, ?_⟩
  rcases cycle_cases s with ⟨hout, e⟩ | ⟨hpc, hop, e⟩ | ⟨_, k, hpc, hop, hk, e⟩ | ⟨_, _, _, hpc, hop, hf, e⟩ <;>
    rw [e] at hc
  · rw [raise_next hc]
    exact .fetchStop hout
  · cases hc
    exact .unknown hpc hop
  · obtain ⟨a, rfl, hout, hle⟩ := fetchOperands_error_bounds hk
    rw [raise_next hc]
    exact .operandStop hpc hop hk hout hle
  · exact .execute hpc hop hf (endsIn_of_exec hc)

/-! ### The next state exists -/

/-- Settles O42. -/
theorem everyRunningStepHasANextState : Obligations.EveryRunningStepHasANextState :=
  ⟨exec_total, fun _ => step_total⟩

/-! ### The parameters -/

theorem endsIn_cfg {i : Instr} {s t : State} (h : endsIn s i t) : t.cfg = s.cfg := by
  cases h <;> rfl

/-- No step writes a parameter (R30). -/
theorem step_cfg {s t : State} (h : step s = .next t) : t.cfg = s.cfg := by
  cases (stepsTo_of_step h).2 with
  | execute _ _ _ hend => exact (endsIn_cfg hend :)
  | _ => rfl

/-- Settles O49. -/
theorem parametersNeverChange : Obligations.ParametersNeverChange :=
  fun _ _ => step_cfg

/-! ### `RUN` -/

/-- An instruction of a running machine that ends fatal has either done nothing else, or is a PUSH that has decremented
the stack pointer (R178). -/
theorem endsIn_fatal {i : Instr} {s t : State} {k : FatalKind} (h : endsIn s i t) (hrun : s.run = .running)
    (hk : t.run = .fatal k) :
    (stopsWith s i k ∧ t = s.setRun (.fatal k)) ∨
    (i.tag = .push ∧ s.cfg.memSize ≤ (spDown (s.reg SP)).toNat ∧
      k = .memoryOutOfBounds .write (spDown (s.reg SP)).toNat ∧
      t = (s.setReg SP (spDown (s.reg SP))).setRun (.fatal k)) := by
  cases h with
  | stop hstop =>
    cases hk
    exact .inl ⟨hstop, rfl⟩
  | pushStop _ hout =>
    cases hk
    exact .inr ⟨rfl, hout, rfl, rfl⟩
  | hlt => cases hk
  | _ => cases hrun.symm.trans hk

/-- An instruction of a running machine that ends halted is HLT. -/
theorem endsIn_halted {i : Instr} {s t : State} (h : endsIn s i t) (hrun : s.run = .running)
    (hhalt : t.run = .halted) : i = .hlt := by
  cases h with
  | stop | pushStop => cases hhalt
  | hlt => rfl
  | _ => cases hrun.symm.trans hhalt

/-- Settles O34: of all that a step can do only the execution of HLT ends halted; HLT has no operand to fetch. -/
theorem onlyHltHalts : Obligations.OnlyHltHalts := by
  refine ⟨fun s t h hhalt => ?_, fun s hrun hpc hop => ?_⟩
  · obtain ⟨hrun, hst⟩ := stepsTo_of_step h
    cases hst with
    | fetchStop | operandStop => cases hhalt
    | unknown => cases hrun.symm.trans hhalt
    | execute _ hop _ hend =>
      have htag : _ = Tag.hlt := congrArg Instr.tag (endsIn_halted hend hrun hhalt)
      rw [hop, ← htag, Tag.tag_assemble]
  · exact ⟨_, step_of_fetchOperands hrun hpc hop rfl, rfl, rfl⟩

/-- No instruction stops for an unsupported ALU operation: MUL and CMP name theirs (R114). -/
theorem not_stopsWith_unsupportedALUOperation {i : Instr} {s : State} {code : Nat} :
    ¬ stopsWith s i (.unsupportedALUOperation code) := nofun

/-- Settles O19: the ALU interface answers the error, and no way for a step to end is an unsupported operation. -/
theorem unsupportedAluOperationIsFatalAndUnreachable : Obligations.UnsupportedAluOperationIsFatalAndUnreachable := by
  refine ⟨fun code a b s ha hb => ?_, fun s t code h hk => ?_⟩
  · simp only [aluInstr, regPair, regIdx_ok ha, regIdx_ok hb, aluApply]
    rfl
  · obtain ⟨hrun, hst⟩ := stepsTo_of_step h
    cases hst with
    | fetchStop | operandStop => cases hk
    | unknown => cases hrun.symm.trans hk
    | execute _ _ _ hend =>
      rcases endsIn_fatal hend hrun hk with ⟨hstop, -⟩ | ⟨-, -, e, -⟩
      · exact not_stopsWith_unsupportedALUOperation hstop
      · cases e

/-- Settles O10: the failed operand fetch of either byte ends the step. -/
theorem operandFetchOutOfBounds : Obligations.OperandFetchOutOfBounds := by
  intro s tag hrun hpc hop
  refine ⟨fun hcount hout => ?_, fun hcount hin hout => ?_⟩
  · exact step_fetchOperands_error hrun hpc hop (fetchOperands_error_op1 hcount hout)
  · exact step_fetchOperands_error hrun hpc hop (fetchOperands_error_op2 hcount hin hout)

/-- Settles O9: the report that `step_unknownOpcode` appends. -/
theorem unknownOpcodeReportHoldsAddressAndByte : Obligations.UnknownOpcodeReportHoldsAddressAndByte :=
  fun _ hrun hpc hop => ⟨_, step_unknownOpcode hrun hpc hop, rfl⟩

/-- Settles O51: a step fatal at a fetch has written nothing but `IR`, and `endsIn_fatal` says what an instruction
leaves. -/
theorem fatalStepLeavesTheStateButForPush : Obligations.FatalStepLeavesTheStateButForPush := by
  intro s t k h hk
  obtain ⟨hrun, hst⟩ := stepsTo_of_step h
  cases hst with
  | fetchStop | operandStop => exact ⟨rfl, rfl, rfl, rfl, rfl, .inl rfl⟩
  | unknown => cases hrun.symm.trans hk
  | execute _ hop _ hend =>
    rcases endsIn_fatal hend hrun hk with ⟨-, rfl⟩ | ⟨htag, -, e, rfl⟩
    · exact ⟨rfl, rfl, rfl, rfl, rfl, .inl rfl⟩
    · exact ⟨rfl, rfl, rfl, rfl, rfl,
        .inr ⟨by rw [hop, ← htag, Tag.tag_assemble], e, s.setReg_reg_same SP _, s.setReg_sameRegsBut SP _⟩⟩

/-! ### The PC -/

/-- A fatal instruction leaves the PC, any other leaves it as the table says (R24, R178). -/
theorem endsIn_pc {i : Instr} {s t : State} (h : endsIn s i t) (hrun : s.run = .running) :
    t.pc = if t.run.isFatal then s.pc else nextPc i s := by
  have hgo : ∀ {u : State}, u.run = s.run → u.pc = nextPc i s →
      u.pc = if u.run.isFatal then s.pc else nextPc i s := by
    intro u hu hpc
    rw [hu, hrun, hpc]
    rfl
  cases h with
  | stop | pushStop | hlt => rfl
  | jmp hr => exact hgo rfl (by rw [nextPc, regOf_of_lt hr, State.setPc_pc])
  | _ => exact hgo rfl rfl

/-- Settles O41: the table for an instruction, `step_unknownOpcode` and `step_fetch_outOfBounds` for the other steps. -/
theorem pcAfterEachInstruction : Obligations.PcAfterEachInstruction := by
  refine ⟨fun i s t hrun h hfatal => ?_, fun s t h hpc hop => ?_, fun s t h hout => ?_⟩
  · rw [endsIn_pc (endsIn_of_exec h) hrun, hfatal]
    rfl
  · cases (step_unknownOpcode (step_next h).1 hpc hop).symm.trans h
    rfl
  · cases (step_fetch_outOfBounds (step_next h).1 hout).symm.trans h
    rfl

/-! ### The outputs -/

/-- Only PRN writes `OUT`, and it appends its register (R31). -/
theorem endsIn_out {i : Instr} {s t : State} (h : endsIn s i t) :
    t.out = s.out ∨ ∃ r, i = .prn r ∧ t.out = s.out ++ [s.reg (regOf r)] := by
  cases h with
  | prn hr => exact .inr ⟨_, rfl, by rw [regOf_of_lt hr]; rfl⟩
  | _ => exact .inl rfl

/-- A step appends nothing, one report, or one byte. -/
theorem step_outputs {s t : State} (h : step s = .next t) :
    (t.out = s.out ∧ t.err = s.err) ∨ (t.out = s.out ∧ ∃ r, t.err = s.err ++ [r]) ∨
      (t.err = s.err ∧ ∃ v, t.out = s.out ++ [v]) := by
  cases (stepsTo_of_step h).2 with
  | fetchStop | operandStop => exact .inl ⟨rfl, rfl⟩
  | unknown => exact .inr (.inl ⟨rfl, _, rfl⟩)
  | execute _ _ _ hend =>
    have herr : t.err = s.err := (exec_reportsOnly (exec_of_endsIn hend)).err
    rcases endsIn_out hend with hout | ⟨r, -, hout⟩
    · exact .inl ⟨hout, herr⟩
    · exact .inr (.inr ⟨herr, _, hout⟩)

/-- Settles O40. -/
theorem outputsOnlyGrow : Obligations.OutputsOnlyGrow := by
  refine ⟨fun i s t h => (exec_reportsOnly h).err, fun i s t h => endsIn_out (endsIn_of_exec h), fun s t h => ?_⟩
  rcases step_outputs h with ⟨ho, he⟩ | ⟨ho, r, he⟩ | ⟨he, v, ho⟩ <;> rw [ho, he]
  · exact ⟨List.prefix_rfl, List.prefix_rfl, Nat.le_succ _⟩
  · exact ⟨List.prefix_rfl, List.prefix_append _ _, by rw [List.length_append, ← Nat.add_assoc]; rfl⟩
  · exact ⟨List.prefix_append _ _, List.prefix_rfl, by simp; omega⟩

/-! ### Memory -/

/-- Only PUSH and ST change memory, and only the cell they store to, which is in bounds (R42). -/
theorem endsIn_mem {i : Instr} {s t : State} (h : endsIn s i t) :
    t.mem = s.mem ∨ ∃ a v, storesAt i s = some a ∧ a < s.cfg.memSize ∧ t.mem = (s.store a v).mem := by
  cases h with
  | push hr hin => exact .inr ⟨_, _, rfl, hin, rfl⟩
  | st ha hb hpol hin => exact .inr ⟨_, _, by rw [storesAt, regOf_of_lt ha], hin, rfl⟩
  | _ => exact .inl rfl

/-- A byte of memory depends on the memory and the parameters alone. -/
theorem State.byteAt_congr {s t : State} (hcfg : t.cfg = s.cfg) (hmem : t.mem = s.mem) (a : Nat) :
    t.byteAt a = s.byteAt a := by
  rw [State.byteAt, State.unlisted, hcfg, hmem]
  rfl

/-- Settles O39. -/
theorem memoryIsWrittenOnlyByPushAndSt : Obligations.MemoryIsWrittenOnlyByPushAndSt := by
  intro i s t h a ha
  have hend := endsIn_of_exec h
  rcases endsIn_mem hend with hmem | ⟨x, v, hx, -, hmem⟩
  · exact State.byteAt_congr (endsIn_cfg hend) hmem a
  · have hne : a ≠ x := fun e => ha (e ▸ hx)
    calc t.byteAt a = (s.store x v).byteAt a := State.byteAt_congr (s := s.store x v) (endsIn_cfg hend :) hmem a
      _ = s.byteAt a := s.store_byteAt_other hne v

/-! ### Registers -/

theorem State.regAddr_lt (s : State) (i : RegIdx) : s.regAddr i < 256 := (s.reg i).isLt

theorem sameRegsBut_of_setReg {l : List Nat} {s t : State} {i : RegIdx} (v : Byte) (hi : i.val ∈ l)
    (h : sameRegsBut l s t) : sameRegsBut l s (t.setReg i v) := by
  intro j hj
  have hne : i ≠ j := fun e => hj (e ▸ hi)
  rw [State.setReg_reg_other t hne, h j hj]

/-- An instruction writes no register but those its table row lists (R22). -/
theorem endsIn_sameRegsBut {i : Instr} {s t : State} (h : endsIn s i t) : sameRegsBut (regsWritten i) s t := by
  have hrefl : ∀ l, sameRegsBut l s s := fun _ _ _ => rfl
  cases h with
  | pushStop hr hout => exact sameRegsBut_of_setReg _ (.head _) (hrefl _)
  | ldi hr => exact sameRegsBut_of_setReg _ (.head _) (hrefl _)
  | mul ha hb => exact sameRegsBut_of_setReg _ (.head _) (hrefl _)
  | push hr hin => exact sameRegsBut_of_setReg _ (.head _) (hrefl _)
  | pop hr hin => exact sameRegsBut_of_setReg _ (.tail _ (.head _)) (sameRegsBut_of_setReg _ (.head _) (hrefl _))
  | _ => exact hrefl _

end Sys2Proof.Machine

/-! ## What an instruction depends on

A register that the table row does not list can be changed beforehand, and the fields that nothing reads can be changed
between two runs, with no other effect (10_state.md R22, R25, R27, R31, R32). -/

namespace Sys2Proof.Machine

/-! ### Registers that an instruction neither reads nor writes -/

namespace State

variable (s : State) (j : RegIdx) (v : Byte)

/-! A register write passes through the updates of other fields. -/

theorem setReg_setRun (r : Run) : (s.setRun r).setReg j v = (s.setReg j v).setRun r := rfl
theorem setReg_setPc (n : Nat) : (s.setPc n).setReg j v = (s.setReg j v).setPc n := rfl
theorem setReg_advance (n : Nat) : (s.advance n).setReg j v = (s.setReg j v).advance n := rfl
theorem setReg_emitOut (b : Byte) : (s.emitOut b).setReg j v = (s.setReg j v).emitOut b := rfl
theorem setReg_store (a : Nat) (b : Byte) : (s.store a b).setReg j v = (s.setReg j v).store a b := rfl

end State

/-- A register outside a list of register numbers is none of those in it. -/
theorem ne_of_val_mem {l : List Nat} {i j : RegIdx} (hj : j.val ∉ l) (hi : i.val ∈ l) : j ≠ i :=
  fun e => hj (e ▸ hi)

section

variable {i : Instr} {s t : State} {j : RegIdx} (hread : j.val ∉ regsRead i) (v : Byte)

include hread

/-- What an instruction reads from its registers is unchanged by a write of another register. -/
theorem setReg_reg_of_read {x : RegIdx} (hx : x.val ∈ regsRead i) (u : State) : (u.setReg j v).reg x = u.reg x :=
  u.setReg_reg_other (ne_of_val_mem hread hx) v

theorem setReg_regAddr_of_read {x : RegIdx} (hx : x.val ∈ regsRead i) (u : State) :
    (u.setReg j v).regAddr x = u.regAddr x :=
  congrArg BitVec.toNat (setReg_reg_of_read hread v hx u)

theorem stopsWith_setReg {k : FatalKind} (h : stopsWith s i k) : stopsWith (s.setReg j v) i k := by
  cases h with
  | illegal hb => exact .illegal hb
  | popLoad hr hout =>
    rw [← setReg_regAddr_of_read hread v (.head _) s] at hout ⊢
    exact .popLoad hr hout
  | stStore ha hb hpol hout =>
    rw [← setReg_regAddr_of_read hread v (.head _) s] at hout ⊢
    exact .stStore ha hb hpol hout
  | stPolicy ha hb hpol => exact .stPolicy ha hb hpol
  | flagPolicy hi hwf hfl hpol => exact .flagPolicy hi hwf hfl hpol

/-- The branch target is read from a register of the table row. -/
theorem nextPc_setReg (hi : isConditional i = true) (hwf : i.wf = true) : nextPc i (s.setReg j v) = nextPc i s := by
  cases i with
  | jeq r | jne r =>
    have hr : (regOf r).val ∈ [r.toNat] := by
      rw [regOf_of_lt (Instr.regOperand_lt hwf (.head _))]
      exact .head _
    simp only [nextPc, State.setReg_fl, State.setReg_pc, setReg_regAddr_of_read hread v hr]
  | _ => cases hi

/-- An instruction ends as before when a register that it neither reads nor writes is changed beforehand, and the
register then still has the changed value. -/
theorem endsIn_setReg (hwrite : j.val ∉ regsWritten i) (h : endsIn s i t) : endsIn (s.setReg j v) i (t.setReg j v) := by
  have hreg {x : RegIdx} (hx : x.val ∈ regsRead i) (u : State) := setReg_reg_of_read hread v hx u
  have hset {x : RegIdx} (hx : x.val ∈ regsWritten i) (w : Byte) (u : State) :=
    u.setReg_comm (ne_of_val_mem hwrite hx).symm w v
  cases h with
  | stop hk => exact .stop (stopsWith_setReg hread v hk)
  | pushStop hr hout =>
    rw [State.setReg_setRun, hset (.head _), ← hreg (.head _) s]
    rw [← hreg (.head _) s] at hout
    exact .pushStop hr hout
  | hlt => exact .hlt
  | ldi hr =>
    rw [State.setReg_advance, hset (.head _)]
    exact .ldi hr
  | prn hr =>
    rw [State.setReg_advance, State.setReg_emitOut, ← hreg (.head _) s]
    exact .prn hr
  | mul ha hb =>
    rw [State.setReg_advance, hset (.head _), ← hreg (.head _) s, ← hreg (.tail _ (.head _)) s]
    exact .mul ha hb
  | cmp ha hb =>
    rw [State.setReg_advance, State.setFl_setReg, ← hreg (.head _) s, ← hreg (.tail _ (.head _)) s]
    exact .cmp ha hb
  | push hr hin =>
    rw [State.pushed, State.setReg_advance, State.setReg_store, ← hreg (.tail _ (.head _)) (s.setReg SP _),
      hset (.head _), ← hreg (.head _) s]
    rw [← hreg (.head _) s] at hin
    exact .push hr hin
  | pop hr hin =>
    rw [State.popped, State.setReg_advance, hset (.tail _ (.head _)), ← hreg (.head _) (s.setReg _ _), hset (.head _)]
    rw [← setReg_regAddr_of_read hread v (.head _) s] at hin ⊢
    exact .pop hr hin
  | st ha hb hpol hin =>
    rw [State.setReg_advance, State.setReg_store, ← hreg (.tail _ (.head _)) s]
    rw [← setReg_regAddr_of_read hread v (.head _) s] at hin ⊢
    exact .st ha hb hpol hin
  | jmp hr =>
    rw [State.setReg_setPc, ← setReg_regAddr_of_read hread v (.head _) s]
    exact .jmp hr
  | branch hi hwf hfl =>
    rw [State.setReg_setPc, ← nextPc_setReg hread v hi hwf]
    exact .branch hi hwf hfl

end

/-- Settles O38: `endsIn_sameRegsBut` for the registers written, `endsIn_setReg` for those with no part in it. -/
theorem registersReadAndWritten : Obligations.RegistersReadAndWritten := by
  refine ⟨fun i s t h => endsIn_sameRegsBut (endsIn_of_exec h), fun i s j v hread hwrite => ?_⟩
  obtain ⟨t, ht⟩ := endsIn_total i s
  rw [exec_of_endsIn ht, exec_of_endsIn (endsIn_setReg hread v hwrite ht)]
  rfl

/-! ### The fields that nothing reads -/

/-- `s` with the fields that nothing reads taken from `u`: `IR`, `FL.lt`, `FL.gt`, `OUT` and `ERR`. -/
def State.withUnread (s u : State) : State :=
  { s with ir := u.ir, fl := ⟨s.fl.eq, u.fl.lt, u.fl.gt⟩, out := u.out, err := u.err }

/-- Two states that agree on what can be read differ in the unread fields alone. -/
theorem eq_withUnread_of_agree {s t : State} (h : agreeOnReadable s t) : t = s.withUnread t := by
  obtain ⟨hcfg, hregs, hpc, heq, hrun, hmem⟩ := h
  rw [State.withUnread, ← hcfg, ← hregs, ← hpc, ← heq, ← hrun, ← hmem]

/-- From `s` to `s'` and from `t` to `t'` the same happens: the states reached agree, and the same outputs are
appended. -/
structure moveAlike (s t s' t' : State) : Prop where
  agree : agreeOnReadable s' t'
  outputs : ∃ o e, s'.out = s.out ++ o ∧ t'.out = t.out ++ o ∧ s'.err = s.err ++ e ∧ t'.err = t.err ++ e

/-- Two moves that emit nothing and reach states that differ in unread fields alone are alike. -/
theorem moveAlike_of_quiet {s s' u u' : State} (hout : s'.out = s.out) (herr : s'.err = s.err)
    (hout' : u'.out = u.out) (herr' : u'.err = u.err) :
    moveAlike s (s.withUnread u) s' (s'.withUnread u') := by
  refine ⟨⟨rfl, rfl, rfl, rfl, rfl, rfl⟩, [], [], ?_⟩
  simp only [List.append_nil]
  exact ⟨hout, hout', herr, herr'⟩

theorem stopsWith_withUnread {i : Instr} {s : State} {k : FatalKind} (u : State) (h : stopsWith s i k) :
    stopsWith (s.withUnread u) i k := by
  cases h with
  | illegal hb => exact .illegal hb
  | popLoad hr hout => exact .popLoad (s := s.withUnread u) hr hout
  | stStore ha hb hpol hout => exact .stStore (s := s.withUnread u) ha hb hpol hout
  | stPolicy ha hb hpol => exact .stPolicy ha hb hpol
  | flagPolicy hi hwf hfl hpol => exact .flagPolicy hi hwf hfl hpol

theorem nextPc_withUnread (i : Instr) (s u : State) : nextPc i (s.withUnread u) = nextPc i s := by
  cases i <;> rfl

/-- An instruction ends alike in two states that differ in unread fields alone. -/
theorem endsIn_withUnread {i : Instr} {s s' : State} (u : State) (h : endsIn s i s') :
    ∃ t', endsIn (s.withUnread u) i t' ∧ moveAlike s (s.withUnread u) s' t' := by
  have quiet : s'.out = s.out → s'.err = s.err → moveAlike s (s.withUnread u) s' (s'.withUnread u) :=
    fun hout herr => moveAlike_of_quiet hout herr rfl rfl
  cases h with
  | stop hk => exact ⟨_, .stop (stopsWith_withUnread u hk), quiet rfl rfl⟩
  | pushStop hr hout => exact ⟨_, .pushStop hr hout, quiet rfl rfl⟩
  | hlt => exact ⟨_, .hlt, quiet rfl rfl⟩
  | ldi hr => exact ⟨_, .ldi hr, quiet rfl rfl⟩
  | prn hr => exact ⟨_, .prn hr, ⟨rfl, rfl, rfl, rfl, rfl, rfl⟩, [s.reg ⟨_, hr⟩], [], rfl, rfl,
      (List.append_nil _).symm, (List.append_nil _).symm⟩
  | mul ha hb => exact ⟨_, .mul ha hb, quiet rfl rfl⟩
  | cmp ha hb =>
    exact ⟨_, .cmp ha hb, moveAlike_of_quiet (u' := u.setFl (compareFlags _ _)) rfl rfl rfl rfl⟩
  | push hr hin => exact ⟨_, .push hr hin, quiet rfl rfl⟩
  | pop hr hin => exact ⟨_, .pop hr hin, quiet rfl rfl⟩
  | st ha hb hpol hin => exact ⟨_, .st ha hb hpol hin, quiet rfl rfl⟩
  | jmp hr => exact ⟨_, .jmp hr, quiet rfl rfl⟩
  | branch hi hwf hfl =>
    refine ⟨_, .branch hi hwf hfl, ?_⟩
    rw [nextPc_withUnread]
    exact quiet rfl rfl

/-- A step from two states that differ in unread fields alone ends alike: the fetches read the same bytes, and so the
same instruction is executed. -/
theorem step_withUnread {s s' : State} (u : State) (h : step s = .next s') :
    ∃ t', step (s.withUnread u) = .next t' ∧ moveAlike s (s.withUnread u) s' t' := by
  obtain ⟨hrun, hst⟩ := stepsTo_of_step h
  cases hst with
  | fetchStop hout =>
    exact ⟨_, step_fetch_outOfBounds (s := s.withUnread u) hrun hout, moveAlike_of_quiet (u' := u) rfl rfl rfl rfl⟩
  | unknown hpc hop =>
    exact ⟨_, step_unknownOpcode (s := s.withUnread u) hrun hpc hop, ⟨rfl, rfl, rfl, rfl, rfl, rfl⟩,
      [], [⟨s.pc, s.byteAt s.pc⟩], (List.append_nil _).symm, (List.append_nil _).symm, rfl, rfl⟩
  | operandStop hpc hop hfetch hout hle =>
    exact ⟨_, step_fetchOperands_error (s := s.withUnread u) hrun hpc hop hfetch,
      moveAlike_of_quiet (u' := u.setIr (s.byteAt s.pc)) rfl rfl rfl rfl⟩
  | execute hpc hop hfetch hend =>
    obtain ⟨t', ht', hagree, houtputs⟩ := endsIn_withUnread (u.setIr (s.byteAt s.pc)) hend
    exact ⟨t', (step_of_fetchOperands (s := s.withUnread u) hrun hpc hop hfetch).trans (exec_of_endsIn ht'),
      hagree, houtputs⟩

/-- Settles O50: the second state is the first with other unread fields. -/
theorem unreadStateHasNoInfluence : Obligations.UnreadStateHasNoInfluence := by
  intro s t s' hst h
  rw [eq_withUnread_of_agree hst]
  obtain ⟨t', ht', hagree, houtputs⟩ := step_withUnread t h
  exact ⟨t', ht', hagree, houtputs⟩

end Sys2Proof.Machine

/-! ## The invariant

Every step keeps it (10_state.md R23, R27, R29), construction and the load phase establish it (70_reset_and_hazards.md
R200), and it bounds the addresses an access can fail at (20_memory.md R41). -/

namespace Sys2Proof.Machine

/-! ### Every step keeps it -/

/-- The canonical form depends on the memory and the parameters alone. -/
theorem State.memWf_congr {s t : State} (hcfg : t.cfg = s.cfg) (hmem : t.mem = s.mem) : t.memWf = s.memWf := by
  rw [State.memWf, State.unlisted, hcfg, hmem]
  rfl

/-- A step leaves the memory as it was or stores one byte in bounds. -/
theorem step_mem {s t : State} (h : step s = .next t) :
    t.mem = s.mem ∨ ∃ a v, a < s.cfg.memSize ∧ t.mem = (s.store a v).mem := by
  cases (stepsTo_of_step h).2 with
  | execute _ _ _ hend =>
    rcases endsIn_mem hend with hmem | ⟨a, v, -, ha, hmem⟩
    · exact .inl hmem
    · exact .inr ⟨a, v, ha, hmem⟩
  | _ => exact .inl rfl

/-- Under legal parameters an instruction in bounds leads at most 3 on, or to an address a register holds. -/
theorem nextPc_le {s : State} (hlegal : s.cfg.legal) (hpc : s.pc < s.cfg.memSize) (i : Instr) :
    nextPc i s ≤ s.cfg.memSize + 2 := by
  obtain ⟨hsize, -, hadv, -⟩ := hlegal
  have haddr : ∀ r, s.regAddr (regOf r) ≤ s.cfg.memSize + 2 := fun r => by
    have := s.regAddr_lt (regOf r)
    omega
  cases i with
  | jmp r => exact haddr r
  | jeq r | jne r =>
    rw [nextPc]
    split
    · exact haddr r
    · omega
  | _ =>
    rw [nextPc]
    omega

/-- The PC stays at most two past the memory (R23). -/
theorem step_pc_le {s t : State} (hlegal : s.cfg.legal) (hrange : s.pc ≤ s.cfg.memSize + 2) (h : step s = .next t) :
    t.pc ≤ s.cfg.memSize + 2 := by
  obtain ⟨hrun, hst⟩ := stepsTo_of_step h
  cases hst with
  | fetchStop | operandStop => exact hrange
  | unknown hpc _ => exact (Nat.succ_le_of_lt hpc).trans (Nat.le_add_right _ _)
  | execute hpc _ _ hend =>
    rw [endsIn_pc hend hrun]
    split
    · exact hrange
    · exact nextPc_le (s := s.setIr _) hlegal hpc _

/-- Settles O44: one lemma for the parameters, the memory, the PC and the flags each. -/
theorem stepKeepsTheInvariant : Obligations.StepKeepsTheInvariant := by
  rintro s t ⟨hlegal, hwf, hbounded, hrange, hflags⟩ h
  have hcfg : t.cfg = s.cfg := step_cfg h
  have hmem : t.memWf = true ∧ Memory.bounded s.cfg.memSize t.mem = true := by
    rcases step_mem h with hsame | ⟨a, v, ha, hstore⟩
    · exact ⟨(State.memWf_congr hcfg hsame).trans hwf, hsame ▸ hbounded⟩
    · exact ⟨(State.memWf_congr (s := s.store a v) hcfg hstore).trans (State.store_memWf hwf a v),
        hstore ▸ State.store_bounded hbounded ha v⟩
  exact {
    legal := hcfg ▸ hlegal
    memWf := hmem.1
    memBounded := hcfg ▸ hmem.2
    pcRange := hcfg ▸ step_pc_le hlegal hrange h
    flags := step_keeps_reachable hflags h }

/-! ### Construction and the load phase -/

theorem construct_inv {c : Config} (hc : c.legal) : (State.construct c).Inv :=
  ⟨hc, rfl, rfl, Nat.zero_le _, rfl⟩

/-- The load of an image that fits keeps the invariant: it writes canonical memory inside the bound. -/
theorem load_keeps_inv {s : State} (h : s.Inv) (image : List Byte) :
    State.Inv { s with mem := Memory.writeBytes s.unlisted s.cfg.memSize s.mem 0 image } :=
  ⟨h.legal, Memory.writeBytes_wf h.memWf 0 image, Memory.writeBytes_bounded h.memBounded 0 image, h.pcRange, h.flags⟩

/-- Settles O45. -/
theorem resetMeetsTheInvariant : Obligations.ResetMeetsTheInvariant :=
  construct_inv (by decide)

/-- Settles O46. -/
theorem loadedStateMeetsTheInvariant : Obligations.LoadedStateMeetsTheInvariant :=
  fun _ image hc hlen => ⟨_, State.load_of_length_le hlen, load_keeps_inv (construct_inv hc) image, rfl, rfl⟩

/-- At construction every register but the stack pointer holds `R_RESET` (R33). -/
theorem construct_reg_of_ne_SP (c : Config) {j : RegIdx} (hj : j ≠ SP) : (State.construct c).reg j = c.rReset := by
  fin_cases j
  on_goal 8 => exact absurd rfl hj
  all_goals rfl

/-- Settles O47: construction lists no cell, so every cell reads as `MEM_FILL`. -/
theorem resetValues : Obligations.ResetValues :=
  ⟨fun c => ⟨rfl, fun _ => construct_reg_of_ne_SP c, rfl, rfl, rfl, fun _ => rfl, rfl, rfl⟩,
    rfl, fun _ => construct_reg_of_ne_SP defaultConfig, rfl, fun _ => rfl⟩

/-! ### The memory primitives -/

/-- A data access that fails does so at an address a register holds. -/
theorem endsIn_outOfBounds {i : Instr} {s t : State} {k : AccessKind} {a : Nat} (h : endsIn s i t)
    (hrun : s.run = .running) (hk : t.run = .fatal (.memoryOutOfBounds k a)) : s.cfg.memSize ≤ a ∧ a < 256 := by
  rcases endsIn_fatal h hrun hk with ⟨hstop, -⟩ | ⟨-, hout, e, -⟩
  · cases hstop with
    | popLoad _ hout => exact ⟨hout, s.regAddr_lt SP⟩
    | stStore _ _ _ hout => exact ⟨hout, s.regAddr_lt _⟩
  · cases e
    exact ⟨hout, BitVec.isLt _⟩

/-- In a memory of 255 cells a step can fail at 255 only, but for the fetch and the operand fetch, which reach 257. -/
theorem step_outOfBounds_255 {s t : State} {k : AccessKind} {a : Nat} (hinv : s.Inv) (hsize : s.cfg.memSize = 255)
    (h : step s = .next t) (hk : t.run = .fatal (.memoryOutOfBounds k a)) :
    255 ≤ a ∧ a ≤ 257 ∧ (k = .read ∨ k = .write → a = 255) := by
  have hrange := hinv.pcRange
  obtain ⟨hrun, hst⟩ := stepsTo_of_step h
  rw [hsize] at hrange
  cases hst with
  | fetchStop hout =>
    cases hk
    exact ⟨hsize ▸ hout, hrange, nofun⟩
  | unknown => cases hrun.symm.trans hk
  | operandStop hpc _ _ hout hle =>
    cases hk
    exact ⟨hsize ▸ hout, by omega, nofun⟩
  | execute _ _ _ hend =>
    obtain ⟨hout, hlt⟩ := endsIn_outOfBounds hend hrun hk
    rw [State.setIr_cfg, hsize] at hout
    exact ⟨hout, by omega, fun _ => by omega⟩

/-- Settles O43: the two primitives in and out of bounds, and the addresses of `step_outOfBounds_255`. -/
theorem memoryPrimitives : Obligations.MemoryPrimitives :=
  ⟨fun _ _ _ => State.memRead_error, fun _ _ _ => State.memRead_ok, fun _ _ v h => State.memWrite_error h v,
    fun s a v h hwf => ⟨s.store a v, State.memWrite_ok h v, State.store_byteAt_same hwf a v,
      fun _ hx => s.store_byteAt_other hx v, State.store_memWf hwf a v, rfl⟩,
    fun _ _ _ _ => step_outOfBounds_255⟩

end Sys2Proof.Machine

/-! ## Programs of several steps

The stack round trips (43_stack_store.md R133), the fetch after a store (20_memory.md section 7, 70_reset_and_hazards.md
section 3), and two runs without an end or to the end of memory (40_execution_cycle.md section 3). -/

namespace Sys2Proof.Machine

/-! ### The stack -/

/-- Settles O25: what PUSH leaves (O20) is where POP starts (O21), and the increment undoes the decrement. -/
theorem pushThenPopRoundTrip : Obligations.PushThenPopRoundTrip := by
  intro s r q hr hq hwf hin
  obtain ⟨t, hpush, -, hsp, hbyte, -, hregs, hpc, -, -, -, -, hcfg⟩ := pushStoresBelowTheStackTop s r hr hin
  have htop : t.regAddr SP = (spDown (s.reg SP)).toNat := congrArg BitVec.toNat hsp
  obtain ⟨u, hpop, hother, hself, hregs', -, hpc', -⟩ := popLoadsTheStackTop t q hq (by rw [htop, hcfg]; exact hin)
  rw [htop, hbyte hwf, hsp] at hother
  rw [htop, hbyte hwf] at hself
  refine ⟨t, u, hpush, hpop, fun h7 => ⟨?_, (hother h7).1⟩, fun h7 => ?_, fun j hj => ?_, by omega⟩
  · rw [← spUp_spDown (s.reg SP)]
    exact BitVec.eq_of_toNat_eq ((hother h7).2.trans (toNat_spUp _).symm)
  · apply BitVec.eq_of_toNat_eq
    rw [hself h7, ← toNat_spUp]
    split
    · rw [spUp_spDown]
    · rfl
  · rw [hregs' j hj, hregs j fun h => hj (.tail _ h)]

/-- Registers that read alike are the same registers. -/
theorem State.regs_ext {s t : State} (h : ∀ j, t.reg j = s.reg j) : t.regs = s.regs :=
  Vector.ext fun n hn => h ⟨n, hn⟩

/-- Instructions executed one after the other, the first list leaving the machine running. -/
theorem execAll_append {is js : List Instr} {s t : State} (h : execAll is s = .next t) (hrun : t.run = .running) :
    execAll (is ++ js) s = execAll js t := by
  induction is generalizing s with
  | nil =>
    cases h
    rfl
  | cons i is ih =>
    rw [List.cons_append, execAll]
    rw [execAll] at h
    rcases he : exec i s with u | _ | _ <;> simp only [he] at h ⊢
    · split at h
      · next hu => rw [if_pos hu, ih h]
      · next hu =>
        cases h
        exact absurd hrun hu
    · cases h
    · cases h

/-- The first instruction leaves the machine running, and then the rest is executed. -/
theorem execAll_cons {i : Instr} {is : List Instr} {s t : State} (h : exec i s = .next t) (hrun : t.run = .running) :
    execAll (i :: is) s = execAll is t := by
  simp only [execAll, h, if_pos hrun]

/-- What `n` pushes and the pops that take them back leave of `s`: everything but the PC and the cells below the stack
top. -/
structure stackRestored (n : Nat) (s t : State) : Prop where
  cfg : t.cfg = s.cfg
  regs : t.regs = s.regs
  run : t.run = s.run
  pc : t.pc = s.pc + 4 * n
  fl : t.fl = s.fl
  outputs : sameOutputs s t
  above : ∀ a, (s.reg SP).toNat ≤ a → t.byteAt a = s.byteAt a

/-- A POP of the register that was pushed takes it back, once what was pushed above it has been taken back: the pushed
byte still stands at the stack top. -/
theorem stackRestored_popped {n : Nat} {s u : State} {r : RegIdx} (hr : r ≠ SP) (hwf : s.memWf = true)
    (hpos : 0 < (s.reg SP).toNat) (h : stackRestored n (s.pushed r) u) : stackRestored (n + 1) s (u.popped r) := by
  obtain ⟨hcfg, hregs, hrun, hpc, hfl, ⟨hout, herr⟩, habove⟩ := h
  have hreg : ∀ j, u.reg j = (s.pushed r).reg j := State.reg_congr hregs
  have hsp : u.reg SP = spDown (s.reg SP) := (hreg SP).trans (s.pushed_reg_SP r)
  rw [State.pushed_reg_SP] at habove
  have hdown : (spDown (s.reg SP)).toNat < (s.reg SP).toNat := by
    rw [toNat_spDown, if_neg (by omega)]
    omega
  have htop : u.byteAt (u.regAddr SP) = s.reg r := by
    rw [State.regAddr, hsp, habove _ le_rfl, State.pushed_byteAt_top hwf, if_neg hr]
  refine ⟨hcfg, State.regs_ext fun j => ?_, hrun, ?_, hfl, ⟨hout, herr⟩, fun a ha => ?_⟩
  · by_cases hjr : j = r
    · rw [hjr, u.popped_reg_same hr, htop]
    · by_cases hjsp : j = SP
      · rw [hjsp, u.popped_reg_SP hr, hsp, spUp_spDown]
      · rw [u.popped_reg_other hjr hjsp, hreg, s.pushed_reg_other r hjsp]
  · calc (u.popped r).pc = s.pc + 2 + 4 * n + 2 := congrArg (· + 2) hpc
      _ = s.pc + 4 * (n + 1) := by omega
  · calc (u.popped r).byteAt a = (s.pushed r).byteAt a := habove a (by omega)
      _ = s.byteAt a := s.pushed_byteAt_other r (by omega)

/-- Pushing registers and popping them in the opposite order restores the stack: the first push and the last pop stand
around the rest of the list. -/
theorem execAll_push_pop {rs : List Byte} {s : State} (hrs : ∀ r ∈ rs, r.toNat < 7) (hrun : s.run = .running)
    (hwf : s.memWf = true) (hlen : rs.length ≤ (s.reg SP).toNat) (hsp : (s.reg SP).toNat ≤ s.cfg.memSize) :
    ∃ t, execAll (rs.map Instr.push ++ rs.reverse.map Instr.pop) s = .next t ∧ stackRestored rs.length s t := by
  induction rs generalizing s with
  | nil => exact ⟨s, rfl, rfl, rfl, rfl, rfl, rfl, ⟨rfl, rfl⟩, fun _ _ => rfl⟩
  | cons r rs ih =>
    obtain ⟨hr7, hrs⟩ := List.forall_mem_cons.mp hrs
    rw [List.length_cons] at hlen
    have hr : r.toNat < 8 := by omega
    have hne : (⟨r.toNat, hr⟩ : RegIdx) ≠ SP := mt (regIdx_eq_SP_iff hr).mp (by omega)
    have hdown : (spDown (s.reg SP)).toNat = (s.reg SP).toNat - 1 := by
      rw [toNat_spDown, if_neg (by omega)]
    obtain ⟨u, hu, hmid⟩ := ih (s := s.pushed ⟨r.toNat, hr⟩) hrs hrun (State.pushed_memWf hwf _)
      (by rw [State.pushed_reg_SP]; omega) (by rw [State.pushed_reg_SP, hdown]; exact (Nat.sub_le _ _).trans hsp)
    have hurun : u.run = .running := hmid.run.trans hrun
    have hpush : exec (.push r) s = .next (s.pushed ⟨r.toNat, hr⟩) := exec_push_of_lt hr (by omega)
    have hpop : exec (.pop r) u = .next (u.popped ⟨r.toNat, hr⟩) := by
      refine exec_pop_of_lt hr ?_
      rw [hmid.cfg, State.regAddr, State.reg_congr hmid.regs, State.pushed_reg_SP, hdown]
      exact (Nat.sub_lt (by omega) Nat.one_pos).trans_le hsp
    refine ⟨_, ?_, stackRestored_popped hne hwf (by omega) hmid⟩
    calc execAll ((r :: rs).map Instr.push ++ (r :: rs).reverse.map Instr.pop) s
        = execAll (.push r :: ((rs.map Instr.push ++ rs.reverse.map Instr.pop) ++ [.pop r])) s := by simp
      _ = execAll ((rs.map Instr.push ++ rs.reverse.map Instr.pop) ++ [.pop r]) (s.pushed ⟨r.toNat, hr⟩) :=
          execAll_cons hpush hrun
      _ = execAll [.pop r] u := execAll_append hu hurun
      _ = .next (u.popped ⟨r.toNat, hr⟩) := execAll_cons hpop hurun

/-- Settles O26. -/
theorem stackSaveAndRestore : Obligations.StackSaveAndRestore := by
  intro rs s hrs hrun hwf hlen hsp
  obtain ⟨t, ht, h⟩ := execAll_push_pop hrs hrun hwf hlen hsp
  exact ⟨t, ht, h.regs, h.run.trans hrun, h.pc, h.fl, h.outputs⟩

/-! ### The fetch after a store -/

/-- A running machine in bounds has a next state with the byte at the PC in `IR` (R81). -/
theorem step_ir {s : State} (hrun : s.run = .running) (hpc : s.pc < s.cfg.memSize) :
    ∃ t, step s = .next t ∧ t.ir = s.byteAt s.pc := by
  obtain ⟨t, ht, hir, -⟩ := (fetchStage s hrun).2 hpc
  exact ⟨t, ht, hir⟩

/-- Settles O28: the next fetch reads the cell that was stored to. -/
theorem storeIsSeenByTheNextFetch : Obligations.StoreIsSeenByTheNextFetch := by
  refine ⟨fun s a b ha hb hrun hwf hpol hin hnext => ?_, fun s r hr7 hrun hwf hin hnext => ?_⟩
  · obtain ⟨u, hu, hir⟩ := step_ir
      (s := (s.store (s.regAddr ⟨a.toNat, ha⟩) (s.reg ⟨b.toNat, hb⟩)).advance s.cfg.stPcAdvance) hrun
      (by rw [State.advance_pc, State.store_pc, ← hnext]; exact hin)
    refine ⟨_, u, exec_st_of_lt ha hb hpol hin, hu, ?_⟩
    rw [hir, State.advance_pc, State.store_pc, ← hnext, State.advance_byteAt, State.store_byteAt_same hwf]
  · have hr : r.toNat < 8 := Nat.lt_succ_of_lt hr7
    have hne : (⟨r.toNat, hr⟩ : RegIdx) ≠ SP := mt (regIdx_eq_SP_iff hr).mp hr7.ne
    have hpc : (s.pushed ⟨r.toNat, hr⟩).pc = (spDown (s.reg SP)).toNat := hnext.symm
    obtain ⟨u, hu, hir⟩ := step_ir (s := s.pushed ⟨r.toNat, hr⟩) hrun (by rw [hpc]; exact hin)
    exact ⟨_, u, exec_push_of_lt hr hin, hu, by rw [hir, hpc, State.pushed_byteAt_top hwf, if_neg hne]⟩

/-- The step at HLT's byte: `IR` written and the machine halted where it stands. -/
theorem step_hlt {s : State} (hrun : s.run = .running) (hpc : s.pc < s.cfg.memSize)
    (hop : s.cfg.opcodes.lookup (s.byteAt s.pc) = some .hlt) :
    step s = .next ((s.setIr (s.byteAt s.pc)).setRun .halted) :=
  step_of_fetchOperands hrun hpc hop rfl

/-- Settles O27: ST does not store to its second operand byte, so that byte is the next opcode. -/
theorem byteAfterStIsItsSecondOperand : Obligations.ByteAfterStIsItsSecondOperand := by
  intro s a b ha rest hrun hpol hadv hdec hb hin hmiss
  obtain ⟨-, -, hw⟩ := opcode_of_decode_window hdec
  obtain ⟨hpc2, hbyte⟩ : s.pc + 2 < s.cfg.memSize ∧ s.byteAt (s.pc + 2) = b := State.window_getElem? (by rw [hw]; rfl)
  obtain ⟨v, hst⟩ : ∃ v, step s =
      .next (((s.setIr (s.byteAt s.pc)).store (s.regAddr ⟨a.toNat, ha⟩) v).advance 2) := by
    rw [stepRunsTheDecodedInstruction s _ rest hrun hdec, ← hadv]
    exact ⟨_, exec_st_of_lt (s := s.setIr (s.byteAt s.pc)) ha hb hpol hin⟩
  have hnext : (((s.setIr (s.byteAt s.pc)).store (s.regAddr ⟨a.toNat, ha⟩) v).advance 2).byteAt (s.pc + 2) = b :=
    ((s.setIr (s.byteAt s.pc)).store_byteAt_other hmiss.symm v).trans hbyte
  refine ⟨_, hst, hrun, rfl, rfl, fun hop => ?_, fun hop => ?_⟩ <;> rw [← hnext] at hop
  · exact ⟨_, step_hlt hrun hpc2 hop, rfl, rfl, rfl⟩
  · refine ⟨_, step_unknownOpcode hrun hpc2 hop, hrun, rfl, ?_⟩
    rw [← hnext]
    rfl

/-! ### A run without an end, and a run to the end of memory -/

/-- The step at a JMP to its own address changes `IR` alone, whatever `IR` held. -/
theorem step_selfJump {s : State} {r : Byte} {rest : List Byte} (hr : r.toNat < 8) (hrun : s.run = .running)
    (hdec : decode s.cfg.opcodes s.window = .ok (.jmp r, rest)) (hself : s.regAddr ⟨r.toNat, hr⟩ = s.pc) (x : Byte) :
    step (s.setIr x) = .next (s.setIr (s.byteAt s.pc)) :=
  calc step (s.setIr x) = exec (.jmp r) (s.setIr (s.byteAt s.pc)) :=
        stepRunsTheDecodedInstruction (s.setIr x) _ rest hrun hdec
    _ = .next ((s.setIr (s.byteAt s.pc)).setPc (s.regAddr ⟨r.toNat, hr⟩)) := exec_jmp_of_lt _ hr
    _ = .next (s.setIr (s.byteAt s.pc)) := by rw [hself]; rfl

/-- Settles O35: every state of the run is the first but for `IR`, and so is running. -/
theorem selfJumpRunsForEver : Obligations.SelfJumpRunsForEver := by
  intro s r hr rest hrun hdec hself
  have hstays : ∀ n x t, runsTo n (s.setIr x) t → ∃ y, t = s.setIr y := by
    intro n
    induction n with
    | zero => exact fun x t ht => ⟨x, (runsTo_zero.mp ht).symm⟩
    | succ n ih =>
      intro x t ht
      obtain ⟨u, hu, ht⟩ := runsTo_succ.mp ht
      cases (step_selfJump hr hrun hdec hself x).symm.trans hu
      exact ih _ t ht
  refine ⟨runsForever_of_never_stopped fun n t ht => ?_, fun n t ht => ?_⟩ <;>
    obtain ⟨y, rfl⟩ := hstays n s.ir t ht
  · exact hrun
  · rfl

/-- The reports of the `n` bytes from the PC on, in address order. -/
def State.reportsFrom (s : State) (n : Nat) : List Report :=
  (List.range n).map fun k => ⟨s.pc + k, s.byteAt (s.pc + k)⟩

/-- What the step over an unknown byte leaves (R83). -/
def State.steppedOver (s : State) : State := ((s.setIr (s.byteAt s.pc)).emitErr ⟨s.pc, s.byteAt s.pc⟩).advance 1

@[simp] theorem State.steppedOver_pc (s : State) : s.steppedOver.pc = s.pc + 1 := rfl
@[simp] theorem State.steppedOver_err (s : State) : s.steppedOver.err = s.err ++ [⟨s.pc, s.byteAt s.pc⟩] := rfl
@[simp] theorem State.steppedOver_byteAt (s : State) (a : Nat) : s.steppedOver.byteAt a = s.byteAt a := rfl

/-- The report of the byte at the PC comes first, and then those from the next PC on. -/
theorem State.reportsFrom_succ (s : State) (n : Nat) :
    s.reportsFrom (n + 1) = ⟨s.pc, s.byteAt s.pc⟩ :: s.steppedOver.reportsFrom n := by
  rw [reportsFrom, List.range_succ_eq_map, List.map_cons, List.map_map, Nat.add_zero]
  refine congrArg _ (List.map_congr_left fun k _ => ?_)
  rw [steppedOver_byteAt, steppedOver_pc, Function.comp_apply, Nat.succ_eq_one_add, ← Nat.add_assoc]

/-- Over `n` unknown bytes the machine steps with a report each and changes nothing else but `IR` and the PC. -/
theorem runsTo_unknown {n : Nat} {s : State} (hrun : s.run = .running) (hfit : s.pc + n ≤ s.cfg.memSize)
    (hop : ∀ a, s.pc ≤ a → a < s.cfg.memSize → s.cfg.opcodes.lookup (s.byteAt a) = none) :
    ∃ t, runsTo n s t ∧ t.run = .running ∧ t.pc = s.pc + n ∧ t.err = s.err ++ s.reportsFrom n ∧ t.regs = s.regs ∧
      t.fl = s.fl ∧ t.mem = s.mem ∧ t.out = s.out ∧ t.cfg = s.cfg := by
  induction n generalizing s with
  | zero => exact ⟨s, runsTo_zero.mpr rfl, hrun, rfl, (List.append_nil _).symm, rfl, rfl, rfl, rfl, rfl⟩
  | succ n ih =>
    have hstep : step s = .next s.steppedOver := step_unknownOpcode hrun (by omega) (hop s.pc le_rfl (by omega))
    have hshift : s.steppedOver.pc + n = s.pc + (n + 1) := Nat.succ_add_eq_add_succ s.pc n
    obtain ⟨t, ht, htrun, hpc, herr, hrest⟩ :=
      ih (s := s.steppedOver) hrun (hshift ▸ hfit) fun a ha => hop a (Nat.le_of_succ_le ha)
    refine ⟨t, runsTo_succ.mpr ⟨_, hstep, ht⟩, htrun, hpc.trans hshift, ?_, hrest⟩
    rw [herr, State.steppedOver_err, State.reportsFrom_succ, List.append_assoc, List.singleton_append]

/-- Settles O52: the PC then stands at the end of memory, where the fetch is fatal. -/
theorem unknownBytesRunToTheEndOfMemory : Obligations.UnknownBytesRunToTheEndOfMemory := by
  intro s hrun hle hop
  have hend : s.pc + (s.cfg.memSize - s.pc) = s.cfg.memSize := Nat.add_sub_of_le hle
  obtain ⟨t, ht, htrun, hpc, herr, hregs, hfl, hmem, hout, hcfg⟩ := runsTo_unknown hrun hend.le hop
  rw [hend] at hpc
  refine ⟨t, ht, htrun, hpc, herr, hregs, hfl, hmem, hout, ?_⟩
  rw [step_fetch_outOfBounds htrun (by rw [hpc, hcfg]), hpc]

end Sys2Proof.Machine
